-- ==== Sys2Proof/Word.lean ====
section
/-! DEFINITION. The value type of the block, the byte (`00_scope.md` R11). Time values (`now`, CK_NEXT_FIRE, INTERVAL) are
natural numbers in one unnamed unit and have the type Nat (`10_state.md` R34, log entry 5). -/

namespace Sys2Proof

/-- R11: an unsigned integer 0 to 255, bits 7 down to 0; `+` on it is modulo 256. -/
abbrev Byte := BitVec 8

end Sys2Proof
end

