-- ==== Sys2Proof/Config.lean ====
section
/-! DEFINITION. The constants the document fixes (`00_scope.md` R9; unaudited literals, log entry 15) and the one value it
leaves to the configuration (R10, `10_state.md` R34). -/

namespace Sys2Proof.Config

/-- R9: SOF, the start-of-frame byte. -/
def sof : Byte := 0xAA

/-- R9: MAX_PAYLOAD, the largest payload in bytes. -/
abbrev maxPayload : Nat := 253

/-- R9: LEN_OVERHEAD, what Length counts beside the payload (Command and Checksum). -/
abbrev lenOverhead : Nat := 2

/-- R9: PIN_MIN. -/
abbrev pinMin : Byte := 1

/-- R9: PIN_MAX. -/
abbrev pinMax : Byte := 15

/-- R9: CK_PERIOD, the length of the CHECK_KEYBOARD cycle. -/
abbrev ckPeriod : Nat := 15

/-- R34, R10: INTERVAL as the environment configured it before reset; a free value, so nothing can be proved of it (log entry 4). -/
opaque interval : Nat

end Sys2Proof.Config
end

