-- ==== Sys2Proof/Syntax.lean ====
section
/-! DEFINITION. The instructions: one validated inbound frame each, selected by its Command byte (`00_scope.md` R6,
`30_encoding.md` R80, R82). One constructor per row of `spec/opcode_table.json`; each carries its whole payload, because no
payload length is ever checked against the command (R78) and the payload is what the observation stream shows (R38). -/

namespace Sys2Proof

/-- R80 and R82: the twelve named commands and the 244 unnamed ones. -/
inductive Instr where
  | echo (payload : List Byte)
  | btnPressed (payload : List Byte)
  | btnReleased (payload : List Byte)
  | modeCheckKeyboard (payload : List Byte)
  | modeRun (payload : List Byte)
  | modeConfigure (payload : List Byte)
  | modeDiodeConfig (payload : List Byte)
  | modeDiodeConfigDel (payload : List Byte)
  | modeDiodeClear (payload : List Byte)
  | diodePressed (payload : List Byte)
  | diodeReleased (payload : List Byte)
  | statusUpdate (payload : List Byte)
  | unknown (command : Byte) (payload : List Byte)
  deriving DecidableEq, Repr

/-- R21: PKT_PAY[0..PKT_LEN], the payload in wire order. -/
def Instr.payload : Instr → List Byte
  | .echo p => p
  | .btnPressed p => p
  | .btnReleased p => p
  | .modeCheckKeyboard p => p
  | .modeRun p => p
  | .modeConfigure p => p
  | .modeDiodeConfig p => p
  | .modeDiodeConfigDel p => p
  | .modeDiodeClear p => p
  | .diodePressed p => p
  | .diodeReleased p => p
  | .statusUpdate p => p
  | .unknown _ p => p

end Sys2Proof
end

