-- ==== Sys2Proof/WellFormed.lean ====
section
/-! DEFINITION. Which instructions a frame can carry: a payload of 0 to 253 bytes (`30_encoding.md` R70, R86), and an
unnamed Command byte for `unknown` (R82). -/

namespace Sys2Proof

/-- R82: the Command values that have no name, 0x00 and 0x0D to 0xFF. -/
def unnamedCommand (c : Byte) : Bool := c == 0x00 || 0x0D ≤ c

/-- R70, R86: a payload that one Length byte can announce. -/
def payloadFits (p : List Byte) : Bool := p.length ≤ Config.maxPayload

/-- R70, R82: the checks on an instruction. -/
def Instr.wellFormed : Instr → Bool
  | .echo p => payloadFits p
  | .btnPressed p => payloadFits p
  | .btnReleased p => payloadFits p
  | .modeCheckKeyboard p => payloadFits p
  | .modeRun p => payloadFits p
  | .modeConfigure p => payloadFits p
  | .modeDiodeConfig p => payloadFits p
  | .modeDiodeConfigDel p => payloadFits p
  | .modeDiodeClear p => payloadFits p
  | .diodePressed p => payloadFits p
  | .diodeReleased p => payloadFits p
  | .statusUpdate p => payloadFits p
  | .unknown c p => unnamedCommand c && payloadFits p

/-- The same as a proposition. -/
abbrev Instr.WellFormed (i : Instr) : Prop := i.wellFormed = true

end Sys2Proof
end

