-- ==== Sys2Proof/Decode.lean ====
section
/-! DEFINITION. Finding, checking and decoding a frame, total on any bytes and rejecting by name, and the encoder
(`30_encoding.md` R70 to R87, `40_framer.md` R101 steps 1 to 7). -/

namespace Sys2Proof

/-- R11: the sum of the bytes modulo 256. -/
def sum8 : List Byte → Byte
  | [] => 0
  | b :: bs => b + sum8 bs

/-- R80: the Command byte, frame byte 2, of each instruction. -/
def Instr.command : Instr → Byte
  | .echo _ => 0x01
  | .btnPressed _ => 0x02
  | .btnReleased _ => 0x03
  | .modeCheckKeyboard _ => 0x04
  | .modeRun _ => 0x05
  | .modeConfigure _ => 0x06
  | .modeDiodeConfig _ => 0x07
  | .modeDiodeConfigDel _ => 0x08
  | .modeDiodeClear _ => 0x09
  | .diodePressed _ => 0x0A
  | .diodeReleased _ => 0x0B
  | .statusUpdate _ => 0x0C
  | .unknown c _ => c

/-- R80, R82, R87: the instruction a Command byte selects; the UNKNOWN row applies only when no named row matches. -/
def ofCommand (c : Byte) (p : List Byte) : Instr :=
  match c with
  | 0x01 => .echo p
  | 0x02 => .btnPressed p
  | 0x03 => .btnReleased p
  | 0x04 => .modeCheckKeyboard p
  | 0x05 => .modeRun p
  | 0x06 => .modeConfigure p
  | 0x07 => .modeDiodeConfig p
  | 0x08 => .modeDiodeConfigDel p
  | 0x09 => .modeDiodeClear p
  | 0x0A => .diodePressed p
  | 0x0B => .diodeReleased p
  | 0x0C => .statusUpdate p
  | _ => .unknown c p

/-- R181: the two sub-causes of a framing error. -/
inductive FramingCause where
  /-- The last byte differs from the sum of the bytes before it (R105; every candidate with Length 0, R104). -/
  | checksum
  /-- Length is 1 and the checksum test passed (R107, log entry 6). -/
  | length
  deriving DecidableEq, Repr

/-- Why the decoder reads no instruction at the front of some bytes. -/
inductive Reject where
  /-- The first byte is not SOF: noise (R85, R102), no error of the block. -/
  | noSof
  /-- Fewer bytes than `2 + Length`: the parser waits (R101 steps 3 and 4), no error of the block. -/
  | incomplete
  /-- A whole candidate that fails a test (R181). -/
  | framing (c : FramingCause)
  deriving DecidableEq, Repr

/-- What steps 1 to 5 of the parsing algorithm (R101) make of a buffer. -/
inductive Scan where
  /-- Nothing to cut: the residue that stays in the buffer (steps 1 to 4). -/
  | wait (residue : List Byte)
  /-- A candidate of `2 + Length` bytes cut off the front, and what is left (step 5). -/
  | cut (candidate rest : List Byte)
  deriving DecidableEq, Repr

/-- R101 steps 1 to 5: drop the bytes before the first SOF, read Length, cut `2 + Length` bytes if they are there. -/
def scan (buf : List Byte) : Scan :=
  match buf.dropWhile (fun b => b != Config.sof) with
  | [] => .wait []
  | [b] => .wait [b]
  | b :: len :: body =>
    if body.length < len.toNat then .wait (b :: len :: body)
    else .cut (b :: len :: body.take len.toNat) (body.drop len.toNat)

/-- R101 steps 6 and 7, R73, R76, R107: the checksum test, then the length test, then Command and payload. -/
def decodeCandidate (f : List Byte) : Except FramingCause Instr :=
  if f.getLastD 0 != sum8 f.dropLast then .error .checksum
  else if f.getD 1 0 < 2 then .error .length
  else .ok (ofCommand (f.getD 2 0) (f.drop 3).dropLast)

/-- The instruction whose frame stands at the front of the bytes, and the bytes after it. -/
def decode (bs : List Byte) : Except Reject (Instr × List Byte) :=
  match bs with
  | [] => .error .incomplete
  | b :: rest =>
    if b != Config.sof then .error .noSof
    else
      match scan (b :: rest) with
      | .wait _ => .error .incomplete
      | .cut f after =>
        match decodeCandidate f with
        | .error c => .error (.framing c)
        | .ok i => .ok (i, after)

/-- R70 to R72, R120: the wire frame of a Command byte and a payload of at most 253 bytes (`build` guards the bound, R121). -/
def frameBytes (c : Byte) (p : List Byte) : List Byte :=
  let h := Config.sof :: BitVec.ofNat 8 (p.length + Config.lenOverhead) :: c :: p
  h ++ [sum8 h]

/-- R88: the frame of a well-formed instruction. -/
def encode (i : Instr) : List Byte := frameBytes i.command i.payload

/-- R87: the wire frame that a word of `spec/opcode_table.json` stands for. The table numbers the Command byte bits 7..0, the
Length byte bits 15..8 and SOF bits 23..16; it gives neither payload nor Checksum. SOF or Length bits that a row leaves zero
are taken as not given: SOF is then 0xAA and the payload empty. A given Length announces that many zero payload bytes; the
Checksum is R72's (log entry 3). -/
def tableFrame (nbits w : Nat) : List Byte :=
  let v := w % 2 ^ nbits
  let sof : Byte := if v / 65536 % 256 = 0 then Config.sof else BitVec.ofNat 8 (v / 65536)
  let len : Byte := if v / 256 % 256 = 0 then 2 else BitVec.ofNat 8 (v / 256)
  let h := sof :: len :: BitVec.ofNat 8 v :: List.replicate (len.toNat - 2) 0
  h ++ [sum8 h]

/-- The instruction the decoder reads from a word of the opcode table: none where it refuses the word's frame. -/
def decodeTableWord (nbits w : Nat) : Option Instr :=
  match decode (tableFrame nbits w) with
  | .ok (i, []) => some i
  | .ok (_, _ :: _) => none
  | .error _ => none

end Sys2Proof
end

