-- ==== Sys2Proof/Machine/State.lean ====
section
/-! DEFINITION. The state of the block (`10_state.md` R20 to R41), the events it takes (`00_scope.md` R8), the reasons a
step can stop, and the state after reset (R41). -/

namespace Sys2Proof.Machine

/-- R30, R33: the active mode, exactly one of five. The two CHECK_KEYBOARD registers are fields of that variant and of no
other, so nothing can read them elsewhere (R33, log entry 8): `index` is CK_INDEX (R31, 4 bits, 1 to 15; 0 is never written,
log entry 21), `nextFire` is CK_NEXT_FIRE (R32). -/
inductive Mode where
  | run
  | checkKeyboard (index : Fin 16) (nextFire : Nat)
  | configure
  | diodeConfig
  | diodeConfigDel
  deriving DecidableEq, Repr

/-- R8, R190, R199: what the environment presents to the block, one at a time. -/
inductive Event where
  /-- R210: the `rst` port. -/
  | reset
  /-- R36: one byte of the RX stream (`rx_valid`, `rx_data`). -/
  | rxByte (b : Byte)
  /-- R170: one pass of the scheduler at time `now` (`tick_valid`, `now`). -/
  | tick (now : Nat)
  deriving DecidableEq, Repr

/-- R38: one packet observation `PktObs(command, payload)`. -/
structure Packet where
  command : Byte
  payload : List Byte
  deriving DecidableEq, Repr

/-- R180: the local, non-fatal error kinds. Raising one changes no behaviour (R11, R188). -/
inductive ErrorKind where
  /-- R181: raised by the Framer on a malformed candidate. -/
  | framing (cause : FramingCause)
  /-- R183: raised by BTN_PRESSED in RUN or CHECK_KEYBOARD on a pin outside 1 to 15. -/
  | semantic (pin1 pin2 : Byte)
  /-- R186: the transport's, outside the block; the block never raises it (log entry 13). -/
  | transportWriteFailure
  /-- R187: the transport's, outside the block; the block never raises it (log entry 13). -/
  | transportUnavailable
  deriving DecidableEq, Repr

/-- R20: the state. `rxbuf` and `mode` are the block's persistent state; `interval` is its configuration input; `tx` and
`obs` are its two output streams; `input` is the environment's schedule (R40, log entry 1) and `errs` a log of the errors
raised (R11, log entry 12), both the model's own. -/
structure State where
  /-- R23: RXBUF, the receive residue. -/
  rxbuf : List Byte
  /-- R30 to R33: MODE with CK_INDEX and CK_NEXT_FIRE. -/
  mode : Mode
  /-- R34: INTERVAL, constant. -/
  interval : Nat
  /-- R8, R36: the events the environment has still to present, the next one first. -/
  input : List Event
  /-- R37: the TX stream, the whole frames handed to the transport, oldest first. -/
  tx : List (List Byte)
  /-- R38: the observation stream, oldest first. -/
  obs : List Packet
  /-- R11, R180: the errors raised, oldest first. -/
  errs : List ErrorKind
  deriving DecidableEq, Repr

/-- R188: "No fault state. No error stops the block". There is no fault. -/
inductive Fault where
  deriving DecidableEq, Repr

/-- Why a step can be refused. -/
inductive Refusal where
  /-- An instruction without a meaning, raised by `exec` only; no arm of it does. Safe. -/
  | notModelled (mnemonic : String)
  /-- U4, R121: `build` called with a payload of more than 253 bytes, raised by `emit`. No meaning makes such a call. Safe. -/
  | payloadOutOfBounds
  deriving DecidableEq, Repr

/-- The three outcomes of a step of this machine. -/
abbrev Outcome := Host.Outcome State Fault Refusal

/-- R41: MODE = RUN, RXBUF empty, INTERVAL at its configured value, both output streams empty; no event presented and no
error logged yet (log entries 1, 9, 10, 12). -/
def State.reset : State :=
  { rxbuf := [], mode := .run, interval := Config.interval, input := [], tx := [], obs := [], errs := [] }

end Sys2Proof.Machine
end

