-- ==== Sys2Proof/Machine/Codec.lean ====
section
/-! DEFINITION. Frame construction, the transmit side (`41_codec_tx.md`). The builders are pure. A call outside the 253-byte
payload bound has no frame (R121, U4). -/

namespace Sys2Proof.Machine

/-- R120, R121: `build(c, p)`. -/
def build (c : Byte) (p : List Byte) : Option (List Byte) :=
  if p.length ≤ Config.maxPayload then some (frameBytes c p) else none

/-- R122: `ack(c) = build(c, [])`, the document's `buildNoPayload`. -/
def buildNoPayload (c : Byte) : Option (List Byte) := build c []

/-- R123: `buildWithPins(c, p1, p2) = build(c, [p1, p2])`. The block emits no such frame; a host builds them. -/
def buildWithPins (c p1 p2 : Byte) : Option (List Byte) := build c [p1, p2]

/-- R79, R124: the bytes of the LED pairs, address before state, in order. -/
def pairBytes : List (Byte × Byte) → List Byte
  | [] => []
  | (address, state) :: rest => address :: state :: pairBytes rest

/-- R124: `status(p1, p2, pairs)`; ledCount is the number of pairs given. -/
def status (p1 p2 : Byte) (pairs : List (Byte × Byte)) : Option (List Byte) :=
  build 0x0C (p1 :: p2 :: BitVec.ofNat 8 pairs.length :: pairBytes pairs)

end Sys2Proof.Machine
end

