-- ==== Sys2Proof/Machine/Flags.lean ====
section
/-! DEFINITION. The block keeps no flag (`10_state.md` R27): these are the comparisons whose results live inside one event.
The third, the checksum comparison, is part of `decodeCandidate`. -/

namespace Sys2Proof.Machine

/-- R163: an unsigned byte in 1 to 15. -/
def pinInRange (p : Byte) : Bool := Config.pinMin ≤ p && p ≤ Config.pinMax

/-- R160, R163: both pins in range. -/
def pinsInRange (p1 p2 : Byte) : Bool := pinInRange p1 && pinInRange p2

/-- R171: `now` has reached CK_NEXT_FIRE; equality fires. -/
def fireDue (now nextFire : Nat) : Bool := nextFire ≤ now

end Sys2Proof.Machine
end

