-- ==== Sys2Proof/Machine/Operands.lean ====
section
/-! DEFINITION. The operands a command reads from its payload (`10_state.md` R22, `30_encoding.md` R77), the index law
(`46_tick.md` R173), and the numbers that stand for MODE (R30). -/

namespace Sys2Proof.Machine

/-- R22: `pin1 = PKT_PAY[0] if PKT_LEN >= 1 else 0`. -/
def pin1 (payload : List Byte) : Byte := payload.getD 0 0

/-- R22: `pin2 = PKT_PAY[1] if PKT_LEN >= 2 else 0`. -/
def pin2 (payload : List Byte) : Byte := payload.getD 1 0

/-- R172, R173: `next(i) = 1 + (i mod 15)`. -/
def nextIndex (i : Fin 16) : Fin 16 :=
  ⟨1 + i.val % Config.ckPeriod, by have := Nat.mod_lt i.val (show 0 < Config.ckPeriod by decide); unfold Config.ckPeriod at *; omega⟩

/-- R172: CK_INDEX as the byte that stands in both pin fields of a fire frame. -/
def indexByte (i : Fin 16) : Byte := BitVec.ofNat 8 i.val

/-- R30, R199: the 3-bit number of MODE on the `mode` port (the spec's own encoding, log entry 18). -/
def Mode.code : Mode → BitVec 3
  | .run => 0
  | .checkKeyboard _ _ => 1
  | .configure => 2
  | .diodeConfig => 3
  | .diodeConfigDel => 4

end Sys2Proof.Machine
end

