-- ==== Sys2Proof/Machine/Ops.lean ====
section
/-! DEFINITION. The named operations over the state: the two output primitives of `00_scope.md` R11, raising an error, writing
MODE, and the two-level dispatch's second level (`42_dispatch.md` R133). The block has no addressable memory (`20_memory.md`
R56, log entry 19). -/

namespace Sys2Proof.Machine

/-- R11, R55: `TxEmit(f)` appends one whole frame to the TX stream; it always completes (R186, log entry 13). -/
def State.txEmit (f : List Byte) (s : State) : State := { s with tx := s.tx ++ [f] }

/-- R11, R38: `PktObs(c, p)`. -/
def State.pktObs (c : Byte) (p : List Byte) (s : State) : State := { s with obs := s.obs ++ [⟨c, p⟩] }

/-- R30, R62: MODE and, with it, the CHECK_KEYBOARD registers are written as one. -/
def State.setMode (m : Mode) (s : State) : State := { s with mode := m }

/-- R23: RXBUF is written. -/
def State.setRxbuf (buf : List Byte) (s : State) : State := { s with rxbuf := buf }

/-- R11, R194: what takes the place of exception entry. `raise` saves nothing and transfers control nowhere; it is logged.
There is no return from it (R195). -/
def State.raise (e : ErrorKind) (s : State) : State := { s with errs := s.errs ++ [e] }

/-- `TxEmit` of a builder's frame; a builder call out of bounds is refused (U4). -/
def emit (f : Option (List Byte)) (s : State) : Outcome :=
  match f with
  | some bytes => .next (s.txEmit bytes)
  | none => .refused .payloadOutOfBounds

/-- R133: `ignore`: no state is written, no frame is emitted, nothing is raised. -/
def ignore (s : State) : Outcome := .next s

/-- R160: `BtnPressed()`, called only in RUN and CHECK_KEYBOARD. -/
def pressResponse (payload : List Byte) (s : State) : Outcome :=
  if pinsInRange (pin1 payload) (pin2 payload) then
    emit (status (pin1 payload) (pin2 payload) [(pin1 payload, pin2 payload)]) s
  else .next (s.raise (.semantic (pin1 payload) (pin2 payload)))

/-- R133: `HandlePacket()`, a packet that is not global forwarded to the active mode. -/
def handlePacket (command : Byte) (payload : List Byte) (s : State) : Outcome :=
  match s.mode with
  | .run => if command = 0x02 then pressResponse payload s else ignore s
  | .checkKeyboard _ _ => if command = 0x02 then pressResponse payload s else ignore s
  | .configure => ignore s
  | .diodeConfig => ignore s
  | .diodeConfigDel => ignore s

end Sys2Proof.Machine
end

