-- ==== Sys2Proof/Machine/ButtonCommands.lean ====
section
/-! DEFINITION. The per-mode commands (`45_button_and_other_commands.md`): each is forwarded to the active mode (R130, R133). -/

namespace Sys2Proof.Machine

/-- R160, R161. -/
def execBtnPressed (payload : List Byte) (s : State) : Outcome := handlePacket 0x02 payload s

/-- R162. -/
def execBtnReleased (payload : List Byte) (s : State) : Outcome := handlePacket 0x03 payload s

/-- R164: STATUS_UPDATE received from the host. -/
def execStatusUpdate (payload : List Byte) (s : State) : Outcome := handlePacket 0x0C payload s

/-- R165: Command 0x00 and 0x0D to 0xFF. The row selects only where no named row matches (R87), so the handler's test for
BTN_PRESSED does not arise. -/
def execUnknown (_command : Byte) (_payload : List Byte) (s : State) : Outcome := ignore s

end Sys2Proof.Machine
end

