-- ==== Sys2Proof/Machine/GlobalCommands.lean ====
section
/-! DEFINITION. The global commands that are not mode switches (`43_global_commands.md`). None reads its payload (R78) or
MODE (R132). -/

namespace Sys2Proof.Machine

/-- R140: ECHO is always acknowledged with an empty frame. -/
def execEcho (_payload : List Byte) (s : State) : Outcome := emit (buildNoPayload 0x01) s

/-- R141: MODE_DIODE_CLEAR is always acknowledged; in spite of its name it writes no mode (C6). -/
def execModeDiodeClear (_payload : List Byte) (s : State) : Outcome := emit (buildNoPayload 0x09) s

/-- R142: DIODE_PRESSED: observability only, no reply. -/
def execDiodePressed (_payload : List Byte) (s : State) : Outcome := .next s

/-- R143: DIODE_RELEASED: observability only, no reply. -/
def execDiodeReleased (_payload : List Byte) (s : State) : Outcome := .next s

end Sys2Proof.Machine
end

