-- ==== Sys2Proof/Machine/ModeSwitch.lean ====
section
/-! DEFINITION. The five mode-switch commands (`44_mode_switch_commands.md`). Each replaces the mode wholesale, from every
mode (R150), before it acknowledges (R58). -/

namespace Sys2Proof.Machine

/-- R151: CK_INDEX 1, CK_NEXT_FIRE 0 ("fire immediately", log entry 7); no acknowledgement. -/
def execModeCheckKeyboard (_payload : List Byte) (s : State) : Outcome := .next (s.setMode (.checkKeyboard 1 0))

/-- R152. -/
def execModeRun (_payload : List Byte) (s : State) : Outcome := .next (s.setMode .run)

/-- R153. -/
def execModeConfigure (_payload : List Byte) (s : State) : Outcome := .next (s.setMode .configure)

/-- R154. -/
def execModeDiodeConfig (_payload : List Byte) (s : State) : Outcome := emit (buildNoPayload 0x07) (s.setMode .diodeConfig)

/-- R155. -/
def execModeDiodeConfigDel (_payload : List Byte) (s : State) : Outcome := emit (buildNoPayload 0x08) (s.setMode .diodeConfigDel)

end Sys2Proof.Machine
end

