-- ==== Sys2Proof/Machine/Dispatch.lean ====
section
/-! DEFINITION. `Dispatch()` (`42_dispatch.md` R130): one direct call of a meaning per instruction. The global commands reach
their own handler without a look at MODE (R131); the others go to the active mode. -/

namespace Sys2Proof.Machine

def exec (i : Instr) (s : State) : Host.Outcome State Fault Refusal :=
  match i with
  | .echo p => Sys2Proof.Machine.execEcho p s
  | .btnPressed p => Sys2Proof.Machine.execBtnPressed p s
  | .btnReleased p => Sys2Proof.Machine.execBtnReleased p s
  | .modeCheckKeyboard p => Sys2Proof.Machine.execModeCheckKeyboard p s
  | .modeRun p => Sys2Proof.Machine.execModeRun p s
  | .modeConfigure p => Sys2Proof.Machine.execModeConfigure p s
  | .modeDiodeConfig p => Sys2Proof.Machine.execModeDiodeConfig p s
  | .modeDiodeConfigDel p => Sys2Proof.Machine.execModeDiodeConfigDel p s
  | .modeDiodeClear p => Sys2Proof.Machine.execModeDiodeClear p s
  | .diodePressed p => Sys2Proof.Machine.execDiodePressed p s
  | .diodeReleased p => Sys2Proof.Machine.execDiodeReleased p s
  | .statusUpdate p => Sys2Proof.Machine.execStatusUpdate p s
  | .unknown c p => Sys2Proof.Machine.execUnknown c p s

end Sys2Proof.Machine
end

