-- ==== Sys2Proof/Machine/Framer.lean ====
section
/-! DEFINITION. The Framer (`40_framer.md`): the RX stream turned into validated packets, each dispatched in the event that
receives its Checksum byte (`20_memory.md` R57). -/

namespace Sys2Proof.Machine

/-- R106: `deliver(f)`: the packet observation, then the dispatch. -/
def deliver (i : Instr) (s : State) : Outcome := exec i (s.pktObs i.command i.payload)

/-- R101: `drain()`. The first argument bounds the passes; every pass but the last cuts at least two bytes, so one more than
the length of RXBUF is never used up (log entry 14). -/
def drain : Nat → State → Outcome
  | 0, s => .next s
  | n + 1, s =>
    match scan s.rxbuf with
    | .wait residue => .next (s.setRxbuf residue)
    | .cut f rest =>
      match decodeCandidate f with
      | .error cause => drain n ((s.setRxbuf rest).raise (.framing cause))
      | .ok i =>
        match deliver i (s.setRxbuf rest) with
        | .next t => drain n t
        | .fault r => .fault r
        | .refused r => .refused r

/-- R100: `feed(bytes)` appends the bytes to RXBUF and drains it. -/
def feed (bs : List Byte) (s : State) : Outcome :=
  drain ((s.rxbuf ++ bs).length + 1) (s.setRxbuf (s.rxbuf ++ bs))

/-- R100: the event `RxByte(b)`. -/
def rxByte (b : Byte) (s : State) : Outcome := feed [b] s

/-- The frame `f` placed so that the next step receives its last byte and so runs its instruction (log entry 3): all of `f`
but the last byte received, and the last byte the next event. -/
def placeFrame (f : List Byte) (s : State) : State :=
  { s with rxbuf := f.dropLast, input := .rxByte (f.getLastD 0) :: s.input }

/-- The bytes of a word that holds no instruction: an empty parser with all of them still to come. -/
def placeBytes (bs : List Byte) (s : State) : State :=
  { s with rxbuf := [], input := bs.map Event.rxByte ++ s.input }

end Sys2Proof.Machine
end

