-- ==== Sys2Proof/Machine/Tick.lean ====
section
/-! DEFINITION. The tick and the CHECK_KEYBOARD fire (`46_tick.md`). -/

namespace Sys2Proof.Machine

/-- R172: the registers after a fire: the index advanced, the schedule counted from `now` (R174). -/
def State.advanceFire (index : Fin 16) (now : Nat) (s : State) : State :=
  s.setMode (.checkKeyboard (nextIndex index) (now + s.interval))

/-- R172: `Fire(now)`: the status frame `pin1 = pin2 = i` without LED pairs. The state advances whatever the transport does
with the frame (R186). -/
def fire (index : Fin 16) (now : Nat) (s : State) : Outcome :=
  emit (status (indexByte index) (indexByte index) []) (s.advanceFire index now)

/-- R170, R171, R176: `Tick(now)`. -/
def tick (now : Nat) (s : State) : Outcome :=
  match s.mode with
  | .checkKeyboard index nextFire => if fireDue now nextFire then fire index now s else .next s
  | .run => .next s
  | .configure => .next s
  | .diodeConfig => .next s
  | .diodeConfigDel => .next s

end Sys2Proof.Machine
end

