-- ==== Sys2Proof/Machine/Events.lean ====
section
/-! DEFINITION. The three events (`00_scope.md` R8) and the output ports (`60_exceptions.md` R199). -/

namespace Sys2Proof.Machine

/-- R210: `Reset` puts every piece of state at its reset value, at any time. INTERVAL keeps its configured value (R34, R41),
and what the environment has still to present is the environment's (R40). -/
def resetEvent (s : State) : State := { State.reset with interval := s.interval, input := s.input }

/-- R8: the next event, removed from the schedule and finished before the one after it. Without one the block waits (R211,
R214, log entry 2). -/
def takeEvent (s : State) : Outcome :=
  match s.input with
  | [] => .next s
  | .reset :: rest => .next (resetEvent { s with input := rest })
  | .rxByte b :: rest => rxByte b { s with input := rest }
  | .tick now :: rest => tick now { s with input := rest }

/-- R199: the `mode` port. -/
def State.modePort (s : State) : BitVec 3 := s.mode.code

/-- R55, R199: the bytes of the TX stream as `tx_data` with `tx_last` on each frame's Checksum byte. -/
def State.txPort (s : State) : List (Byte × Bool) :=
  s.tx.flatMap fun f => f.dropLast.map (·, false) ++ f.getLast?.toList.map (·, true)

end Sys2Proof.Machine
end

