-- ==== Sys2Proof/Machine/Step.lean ====
section
/-! DEFINITION. One step of the machine: one event (`00_scope.md` R8). -/

namespace Sys2Proof.Machine

/-- R8: one event. -/
def step (s : State) : Host.Outcome State Fault Refusal := takeEvent s

/-- A word of the opcode table placed where the next step runs it (log entry 3). -/
def State.withFetchWord (s : State) (nbits w : Nat) : State :=
  match decodeTableWord nbits w with
  | some _ => placeFrame (tableFrame nbits w) s
  | none => placeBytes (tableFrame nbits w) s

end Sys2Proof.Machine
end

