-- ==== Sys2Proof/Machine/ByteSerial.lean ====
section
/-! DEFINITION. The register view of RXBUF (`10_state.md` R25, R26) and the byte-serial form of the parser step on it
(`40_framer.md` R103): what a hardware parser keeps in place of the buffer. The machine runs the buffer form; an obligation
states that the two agree. -/

namespace Sys2Proof.Machine

/-- R25: PHASE. -/
inductive Phase where
  | hunt
  | len
  | body
  deriving DecidableEq, Repr

/-- R25: HUNT = 0, LEN = 1, BODY = 2 (the spec's own encoding, log entry 18). -/
def Phase.code : Phase → BitVec 2
  | .hunt => 0
  | .len => 1
  | .body => 2

/-- R25: the parser's registers. LENR, SUM and BODY_MEM have no meaning outside BODY, so they are fields of that phase; CNT is
the number of bytes in BODY_MEM. -/
inductive ParserRegs where
  | hunt
  | len
  | body (lenr sum : Byte) (bodyMem : List Byte)
  deriving DecidableEq, Repr

/-- R25: PHASE of the registers. -/
def ParserRegs.phase : ParserRegs → Phase
  | .hunt => .hunt
  | .len => .len
  | .body _ _ _ => .body

/-- R25, R26: CNT, how far into the current candidate the stream has been consumed. Outside BODY, and so at reset, the spec calls
CNT not meaningful (R25, R41); that it answers 0 there is the model's choice (DESIGN CHOICE, log entry 23). -/
def ParserRegs.cnt : ParserRegs → Nat
  | .hunt => 0
  | .len => 0
  | .body _ _ mem => mem.length

/-- R25: the registers as a function of RXBUF. -/
def parserRegs : List Byte → ParserRegs
  | [] => .hunt
  | [_] => .len
  | b :: lenr :: mem => .body lenr (sum8 (b :: lenr :: mem)) mem

/-- R25: RXBUF as a function of the registers. -/
def ParserRegs.toRxbuf : ParserRegs → List Byte
  | .hunt => []
  | .len => [Config.sof]
  | .body lenr _ mem => Config.sof :: lenr :: mem

/-- What one byte makes the parser report. -/
inductive ParserOut where
  | quiet
  | error (cause : FramingCause)
  | deliver (frame : List Byte)
  deriving DecidableEq, Repr

/-- R103: the byte-serial step. -/
def ParserRegs.feedByte (b : Byte) : ParserRegs → ParserRegs × ParserOut
  | .hunt => if b = Config.sof then (.len, .quiet) else (.hunt, .quiet)
  | .len => if b = 0 then (.hunt, .error .checksum) else (.body b (Config.sof + b) [], .quiet)
  | .body lenr sum mem =>
    if mem.length < lenr.toNat - 1 then (.body lenr (sum + b) (mem ++ [b]), .quiet)
    else if b ≠ sum then (.hunt, .error .checksum)
    else if lenr < 2 then (.hunt, .error .length)
    else (.hunt, .deliver (Config.sof :: lenr :: (mem ++ [b])))

/-- R76: Command and payload of a valid candidate. -/
def packetOf (f : List Byte) : Instr := ofCommand (f.getD 2 0) (f.drop 3).dropLast

/-- R103 as an event of the machine: the registers stepped, then the error raised or the packet delivered. -/
def rxByteSerial (b : Byte) (s : State) : Outcome :=
  match (parserRegs s.rxbuf).feedByte b with
  | (regs, .quiet) => .next (s.setRxbuf regs.toRxbuf)
  | (regs, .error cause) => .next ((s.setRxbuf regs.toRxbuf).raise (.framing cause))
  | (regs, .deliver f) => deliver (packetOf f) (s.setRxbuf regs.toRxbuf)

end Sys2Proof.Machine
end

