-- ==== Sys2Proof/Safety.lean ====
section
/-! DEFINITION. What a sound state of the block is, runs of events, and the spec's tables written as functions of the Command
byte, in the terms the statements use. -/

namespace Sys2Proof.Machine

/-- R24: RXBUF after an event: empty, `[0xAA]`, or a proper prefix of a candidate with Length at least 1. -/
def rxbufOk : List Byte → Bool
  | [] => true
  | [b] => b == Config.sof
  | b :: len :: body => b == Config.sof && 1 ≤ len && body.length < len.toNat

/-- R31: CK_INDEX is 1 to 15 where it exists. -/
def modeOk : Mode → Bool
  | .run => true
  | .checkKeyboard index _ => index != 0
  | .configure => true
  | .diodeConfig => true
  | .diodeConfigDel => true

/-- R122: the acknowledgement frame of a command, its checksum in closed form (R125). -/
def ackFrame (c : Byte) : List Byte := [0xAA, 0x02, c, 0xAC + c]

/-- R125: the press status frame, its checksum in closed form. -/
def pressFrame (p1 p2 : Byte) : List Byte := [0xAA, 0x07, 0x0C, p1, p2, 0x01, p1, p2, 0xBE + 2 * (p1 + p2)]

/-- R125: the fire status frame, its checksum in closed form. -/
def fireFrame (i : Byte) : List Byte := [0xAA, 0x05, 0x0C, i, i, 0x00, 0xBB + 2 * i]

/-- R125: the frames the block can ever emit. -/
def emittable (f : List Byte) : Prop :=
  (∃ c ∈ ([0x01, 0x07, 0x08, 0x09] : List Byte), f = ackFrame c) ∨
  (∃ p1 p2, pinsInRange p1 p2 = true ∧ f = pressFrame p1 p2) ∨
  ∃ i, pinInRange i = true ∧ f = fireFrame i

/-- R181, R183: the errors the block raises: framing errors, and semantic errors whose pins fail the range test. -/
def blockError : ErrorKind → Bool
  | .framing _ => true
  | .semantic p1 p2 => !pinsInRange p1 p2
  | .transportWriteFailure => false
  | .transportUnavailable => false

/-- R24, R31, R125, R21, R181: the invariant of the block. -/
structure State.Inv (s : State) : Prop where
  rxbuf : rxbufOk s.rxbuf = true
  mode : modeOk s.mode = true
  tx : ∀ f ∈ s.tx, emittable f
  obs : ∀ p ∈ s.obs, payloadFits p.payload = true
  errs : ∀ e ∈ s.errs, blockError e = true

/-- `k` steps, stopping at the first that is not a next state. -/
def run : Nat → State → Outcome
  | 0, s => .next s
  | k + 1, s =>
    match step s with
    | .next t => run k t
    | .fault r => .fault r
    | .refused r => .refused r

/-- R57: packets delivered one after another. -/
def deliverAll : List Instr → State → Outcome
  | [], s => .next s
  | i :: is, s =>
    match deliver i s with
    | .next t => deliverAll is t
    | .fault r => .fault r
    | .refused r => .refused r

/-- R150: the Command values 0x04 to 0x08 of the five mode-switch commands. -/
def modeSwitchByte (c : Byte) : Bool := 0x04 ≤ c && c ≤ 0x08

/-- R81: the global set. -/
def globalByte (c : Byte) : Bool :=
  c == 0x01 || c == 0x04 || c == 0x05 || c == 0x06 || c == 0x07 || c == 0x08 || c == 0x09 || c == 0x0A || c == 0x0B

/-- R134: the modes in which BTN_PRESSED is answered. -/
def pressAnswered : Mode → Bool
  | .run => true
  | .checkKeyboard _ _ => true
  | .configure => false
  | .diodeConfig => false
  | .diodeConfigDel => false

/-- R134: MODE after a command, by its Command byte. -/
def tableMode (c : Byte) (m : Mode) : Mode :=
  if c = 0x04 then .checkKeyboard 1 0
  else if c = 0x05 then .run
  else if c = 0x06 then .configure
  else if c = 0x07 then .diodeConfig
  else if c = 0x08 then .diodeConfigDel
  else m

/-- R134: the frames a command emits, by its Command byte, its payload and the mode that receives it. -/
def tableReply (c : Byte) (p : List Byte) (m : Mode) : List (List Byte) :=
  if c = 0x01 ∨ c = 0x07 ∨ c = 0x08 ∨ c = 0x09 then [ackFrame c]
  else if c = 0x02 ∧ pressAnswered m = true ∧ pinsInRange (pin1 p) (pin2 p) = true then [pressFrame (pin1 p) (pin2 p)]
  else []

/-- R135, R183: the errors a command raises. -/
def tableErrors (c : Byte) (p : List Byte) (m : Mode) : List ErrorKind :=
  if c = 0x02 ∧ pressAnswered m = true ∧ pinsInRange (pin1 p) (pin2 p) = false then [.semantic (pin1 p) (pin2 p)]
  else []

/-- R173: the first `n` fire frames after an entry to CHECK_KEYBOARD; the `k`-th carries `1 + ((k - 1) mod 15)`. -/
def fireFrames (n : Nat) : List (List Byte) := (List.range n).map fun k => fireFrame (BitVec.ofNat 8 (1 + k % 15))

/-- R177: every time at least `gap` after the one before it. -/
def spacedBy (gap : Nat) : List Nat → Bool
  | [] => true
  | [_] => true
  | a :: b :: rest => a + gap ≤ b && spacedBy gap (b :: rest)

end Sys2Proof.Machine
end

