-- ==== Sys2Proof/Certificates/Slice0/Obligations.lean ====
section
/-! DEFINITION. The statements for the provers. A result statement gives the whole next state, so it is also the frame and
the completion of its instruction: what it does not name is unchanged, and no hypothesis on the state is left unsaid. -/

open Sys2Proof Sys2Proof.Machine

/-! ## Reset -/

/-- `10_state.md` R41 and `70_reset_and_hazards.md` R210, both marked decisions of the spec (92 D10; only MODE = RUN is the
document's word): from every state a `Reset` event leaves RUN, an empty RXBUF and empty streams, and emits nothing. That
INTERVAL and the waiting events are kept is log entry 4 and 1, that the logs are emptied log entries 10 and 12. That the number
of RUN is 0 is the spec's decision 92 D5, log entry 18. -/
def Obligations.ResetEventLeavesResetState : Prop :=
  (∀ (s : State) (es : List Event), step { s with input := .reset :: es } =
    .next { rxbuf := [], mode := .run, interval := s.interval, input := es, tx := [], obs := [], errs := [] }) ∧
  State.reset =
    { rxbuf := [], mode := .run, interval := Config.interval, input := [], tx := [], obs := [], errs := [] } ∧
  State.reset.mode.code = 0 ∧ parserRegs State.reset.rxbuf = .hunt

/-! ## Encoding -/

/-- `30_encoding.md` R70, R80 and the table of `95_test_vectors.md` section 3: one frame of each class of command, written
out byte by byte, decodes to the instruction it stands for. Four byte sequences are refused, each by name: a wrong last byte as a
checksum error (`40_framer.md` R105, `60_exceptions.md` R181), AA 01 AB as a length error (R107, R181 and `30_encoding.md` R84:
the spec's decision 92 D4, log entry 6), and, under names of the model for what the spec calls no error, a frame not yet whole
(R101 step 4) and a first byte that is not SOF (R102, R85). -/
def Obligations.WrittenFramesDecode : Prop :=
  decode [0xAA, 0x02, 0x01, 0xAD] = .ok (.echo [], []) ∧
  decode [0xAA, 0x04, 0x02, 0x03, 0x07, 0xBA] = .ok (.btnPressed [3, 7], []) ∧
  decode [0xAA, 0x02, 0x04, 0xB0] = .ok (.modeCheckKeyboard [], []) ∧
  decode [0xAA, 0x03, 0x07, 0x09, 0xBD] = .ok (.modeDiodeConfig [9], []) ∧
  decode [0xAA, 0x07, 0x0C, 0x03, 0x07, 0x01, 0x03, 0x07, 0xD2] = .ok (.statusUpdate [3, 7, 1, 3, 7], []) ∧
  decode [0xAA, 0x02, 0xFF, 0xAB, 0x00] = .ok (.unknown 0xFF [], [0x00]) ∧
  decode [0xAA, 0x02, 0x01, 0xAE] = .error (.framing .checksum) ∧
  decode [0xAA, 0x01, 0xAB] = .error (.framing .length) ∧
  decode [0xAA, 0x02, 0x01] = .error .incomplete ∧
  decode [0x09, 0xB5] = .error .noSof

/-- `41_codec_tx.md` R126, `40_framer.md` R115: decoding the frame of a well-formed instruction gives it back, whatever
follows the frame. -/
def Obligations.DecodeEncodeRoundTrip : Prop :=
  ∀ (i : Instr) (rest : List Byte), i.WellFormed → decode (encode i ++ rest) = .ok (i, rest)

/-- `30_encoding.md` R70 to R76: the decoder accepts nothing but frames of well-formed instructions, and consumes exactly the
frame. (That Length below 2 is no frame is the spec's decision 92 D4, log entry 6.) -/
def Obligations.DecodeAcceptsOnlyEncodings : Prop :=
  ∀ (bs rest : List Byte) (i : Instr), decode bs = .ok (i, rest) → i.WellFormed ∧ bs = encode i ++ rest

/-- `30_encoding.md` R71 and R72: the Length law and the checksum law, of every frame that is built and of every frame that is
accepted; the ECHO frame. That no accepted frame has a Length below 2 is R73's second conjunct, the spec's decision 92 D4, log
entry 6. -/
def Obligations.BuiltFramesObeyLengthAndChecksumLaws : Prop :=
  (∀ (c : Byte) (p f : List Byte), build c p = some f →
    (f.getD 1 0).toNat = 1 + p.length + 1 ∧ p.length = (f.getD 1 0).toNat - 2 ∧ f.length = 2 + (f.getD 1 0).toNat ∧
    2 ≤ (f.getD 1 0).toNat ∧ (f.getD 1 0).toNat ≤ 255 ∧
    f.getLastD 0 = sum8 f.dropLast) ∧
  (∀ (bs : List Byte) (i : Instr) (rest : List Byte), decode bs = .ok (i, rest) →
    let f := bs.take (2 + (bs.getD 1 0).toNat)
    f.length = 2 + (f.getD 1 0).toNat ∧ i.payload.length = (f.getD 1 0).toNat - 2 ∧ 2 ≤ (f.getD 1 0).toNat ∧
    f.getLastD 0 = sum8 f.dropLast) ∧
  sum8 [0xAA, 0x02, 0x01] = 0xAD ∧ build 0x01 [] = some [0xAA, 0x02, 0x01, 0xAD]

/-- `41_codec_tx.md` R120: `build` on every Command byte and every payload of 0 to 253 bytes, and its two examples. -/
def Obligations.BuildAnswersTheWireFrame : Prop :=
  (∀ (c : Byte) (p : List Byte), p.length ≤ 253 →
    build c p = some (0xAA :: BitVec.ofNat 8 (p.length + 2) :: c ::
      (p ++ [sum8 (0xAA :: BitVec.ofNat 8 (p.length + 2) :: c :: p)])) ∧
    ∀ f, build c p = some f → f.length = p.length + 4) ∧
  build 0x01 [] = some [0xAA, 0x02, 0x01, 0xAD] ∧
  build 0x02 [0x03, 0x07] = some [0xAA, 0x04, 0x02, 0x03, 0x07, 0xBA]

/-- `41_codec_tx.md` R124 and `30_encoding.md` R79, with the bound of R121 (a longer payload is refused by the model's
choice, 93 U4, log entry 16): the status frame of up to 125 LED pairs field by field, pair `k` at payload offset `3 + 2k`. -/
def Obligations.StatusFrameLayout : Prop :=
  ∀ (p1 p2 : Byte) (pairs : List (Byte × Byte)),
    (125 < pairs.length → status p1 p2 pairs = none) ∧
    (pairs.length ≤ 125 → ∃ f, status p1 p2 pairs = some f ∧ f.length = 7 + 2 * pairs.length ∧
      f.take 6 = [0xAA, BitVec.ofNat 8 (5 + 2 * pairs.length), 0x0C, p1, p2, BitVec.ofNat 8 pairs.length] ∧
      (∀ k (h : k < pairs.length), f.getD (6 + 2 * k) 0 = pairs[k].1 ∧ f.getD (7 + 2 * k) 0 = pairs[k].2) ∧
      f.getLastD 0 = sum8 f.dropLast)

/-- `41_codec_tx.md` R121 to R123: the wrappers of `build`, the four acknowledgements the block emits, and the payload bound
(beyond it the model refuses the call, 93 U4, log entry 16). -/
def Obligations.BuilderWrappersAndBound : Prop :=
  (∀ c : Byte, buildNoPayload c = build c [] ∧ buildNoPayload c = some [0xAA, 0x02, c, 0xAC + c]) ∧
  (∀ c p1 p2 : Byte, buildWithPins c p1 p2 = some [0xAA, 0x04, c, p1, p2, 0xAE + c + p1 + p2]) ∧
  buildNoPayload 0x01 = some [0xAA, 0x02, 0x01, 0xAD] ∧ buildNoPayload 0x07 = some [0xAA, 0x02, 0x07, 0xB3] ∧
  buildNoPayload 0x08 = some [0xAA, 0x02, 0x08, 0xB4] ∧ buildNoPayload 0x09 = some [0xAA, 0x02, 0x09, 0xB5] ∧
  buildWithPins 0x03 3 7 = some [0xAA, 0x04, 0x03, 0x03, 0x07, 0xBB] ∧
  ∀ (c : Byte) (p : List Byte), 253 < p.length → build c p = none

/-! ## A step runs the decoded instruction -/

/-- Log entry 3, the model's reading of `30_encoding.md` R87: a word of the opcode table placed by `withFetchWord` is run by
the very next step, as the packet of its frame. -/
def Obligations.PlacedWordRunsNext : Prop :=
  ∀ (s : State) (nbits w : Nat) (i : Instr), decodeTableWord nbits w = some i →
    i.WellFormed ∧ step (s.withFetchWord nbits w) = deliver i { s with rxbuf := [] }

/-- `40_framer.md` R106 and `30_encoding.md` R76: in the event that receives the last byte of a frame, the packet is observed and its instruction
dispatched, with RXBUF already empty of the candidate; Command and payload are the frame's bytes. -/
def Obligations.StepRunsDecodedInstruction : Prop :=
  ∀ (s : State) (b : Byte) (es : List Event) (i : Instr), decode (s.rxbuf ++ [b]) = .ok (i, []) →
    step { s with input := .rxByte b :: es } =
      exec i { s with rxbuf := [], input := es, obs := s.obs ++ [⟨i.command, i.payload⟩] } ∧
    i.command = (s.rxbuf ++ [b]).getD 2 0 ∧
    i.payload.length = (s.rxbuf ++ [b]).length - 4 ∧ i.payload.length = ((s.rxbuf ++ [b]).getD 1 0).toNat - 2 ∧
    ∀ k, k < i.payload.length → i.payload.getD k 0 = (s.rxbuf ++ [b]).getD (3 + k) 0

/-! ## The commands -/

/-- `43_global_commands.md` R140 and R141: ECHO and MODE_DIODE_CLEAR emit exactly one empty acknowledgement, in every mode,
whatever their payload, and change nothing else. -/
def Obligations.EchoAndDiodeClearAcknowledge : Prop :=
  (∀ (p : List Byte) (s : State), exec (.echo p) s = .next { s with tx := s.tx ++ [[0xAA, 0x02, 0x01, 0xAD]] }) ∧
  (∀ (p : List Byte) (s : State), exec (.modeDiodeClear p) s = .next { s with tx := s.tx ++ [[0xAA, 0x02, 0x09, 0xB5]] }) ∧
  encode (.echo []) = [0xAA, 0x02, 0x01, 0xAD] ∧ encode (.modeDiodeClear []) = [0xAA, 0x02, 0x09, 0xB5]

/-- `43_global_commands.md` R142 and R143: DIODE_PRESSED and DIODE_RELEASED write nothing, emit nothing and raise nothing;
the observation of the packet, made before the dispatch, is their only trace. -/
def Obligations.DiodeCommandsLeaveOnlyTheObservation : Prop :=
  (∀ (p : List Byte) (s : State), exec (.diodePressed p) s = .next s ∧
    deliver (.diodePressed p) s = .next { s with obs := s.obs ++ [⟨0x0A, p⟩] }) ∧
  (∀ (p : List Byte) (s : State), exec (.diodeReleased p) s = .next s ∧
    deliver (.diodeReleased p) s = .next { s with obs := s.obs ++ [⟨0x0B, p⟩] }) ∧
  encode (.diodePressed []) = [0xAA, 0x02, 0x0A, 0xB6] ∧ encode (.diodeReleased []) = [0xAA, 0x02, 0x0B, 0xB7]

/-- `44_mode_switch_commands.md` R152 and R153: MODE_RUN and MODE_CONFIGURE set MODE from every mode, with no frame and no
error; ticks then emit nothing, and in CONFIGURE every per-mode command is ignored. -/
def Obligations.RunAndConfigureSwitchSilently : Prop :=
  (∀ (p : List Byte) (s : State), exec (.modeRun p) s = .next { s with mode := .run }) ∧
  (∀ (p : List Byte) (s : State), exec (.modeConfigure p) s = .next { s with mode := .configure }) ∧
  encode (.modeRun []) = [0xAA, 0x02, 0x05, 0xB1] ∧ encode (.modeConfigure []) = [0xAA, 0x02, 0x06, 0xB2] ∧
  State.reset.mode = .run ∧
  (∀ (p : List Byte) (s t : State) (now : Nat),
    exec (.modeRun p) s = .next t ∨ exec (.modeConfigure p) s = .next t → tick now t = .next t) ∧
  (∀ (p : List Byte) (s t : State) (i : Instr), exec (.modeConfigure p) s = .next t → i.WellFormed →
    globalByte i.command = false → exec i t = .next t)

/-- `44_mode_switch_commands.md` R154 and R155: the two diode configuration modes are entered from every mode, also from
themselves, and exactly one acknowledgement is emitted. -/
def Obligations.DiodeConfigSwitchesAcknowledge : Prop :=
  (∀ (p : List Byte) (s : State), exec (.modeDiodeConfig p) s =
    .next { s with mode := .diodeConfig, tx := s.tx ++ [[0xAA, 0x02, 0x07, 0xB3]] }) ∧
  (∀ (p : List Byte) (s : State), exec (.modeDiodeConfigDel p) s =
    .next { s with mode := .diodeConfigDel, tx := s.tx ++ [[0xAA, 0x02, 0x08, 0xB4]] }) ∧
  encode (.modeDiodeConfig []) = [0xAA, 0x02, 0x07, 0xB3] ∧ encode (.modeDiodeConfigDel []) = [0xAA, 0x02, 0x08, 0xB4]

/-- `44_mode_switch_commands.md` R151, which the spec marks a decision for "CK_NEXT_FIRE <- 0" (92 D7, log entry 7): from
every mode CHECK_KEYBOARD is entered with CK_INDEX 1 and armed, silently, and the next tick fires whatever its `now`. -/
def Obligations.CheckKeyboardEntryArmsTheTimer : Prop :=
  (∀ (p : List Byte) (s : State), exec (.modeCheckKeyboard p) s = .next { s with mode := .checkKeyboard 1 0 }) ∧
  encode (.modeCheckKeyboard []) = [0xAA, 0x02, 0x04, 0xB0] ∧
  ∀ (p : List Byte) (s t : State) (now : Nat), exec (.modeCheckKeyboard p) s = .next t →
    tick now t = .next { t with
      mode := .checkKeyboard 2 (now + t.interval)
      tx := t.tx ++ [[0xAA, 0x05, 0x0C, 0x01, 0x01, 0x00, 0xBD]] }

/-- `45_button_and_other_commands.md` R160: BTN_PRESSED in RUN and in CHECK_KEYBOARD: one status frame if both pins are in 1
to 15, else a semantic error and no frame; MODE and the CHECK_KEYBOARD registers stay. -/
def Obligations.PressAnsweredInRunAndCheckKeyboard : Prop :=
  (∀ (p : List Byte) (s : State), (s.mode = .run ∨ ∃ i n, s.mode = .checkKeyboard i n) →
    (1 ≤ (pin1 p).toNat ∧ (pin1 p).toNat ≤ 15 ∧ 1 ≤ (pin2 p).toNat ∧ (pin2 p).toNat ≤ 15 →
      exec (.btnPressed p) s = .next { s with tx := s.tx ++
        [[0xAA, 0x07, 0x0C, pin1 p, pin2 p, 0x01, pin1 p, pin2 p, 0xBE + 2 * (pin1 p + pin2 p)]] }) ∧
    (¬ (1 ≤ (pin1 p).toNat ∧ (pin1 p).toNat ≤ 15 ∧ 1 ≤ (pin2 p).toNat ∧ (pin2 p).toNat ≤ 15) →
      exec (.btnPressed p) s = .next { s with errs := s.errs ++ [.semantic (pin1 p) (pin2 p)] })) ∧
  (∀ p1 p2 : Byte, encode (.btnPressed [p1, p2]) = [0xAA, 0x04, 0x02, p1, p2, 0xB0 + p1 + p2]) ∧
  (∀ s : State, s.mode = .run → exec (.btnPressed [3, 7]) s =
    .next { s with tx := s.tx ++ [[0xAA, 0x07, 0x0C, 0x03, 0x07, 0x01, 0x03, 0x07, 0xD2]] })

/-- `45_button_and_other_commands.md` R161: in the other three modes BTN_PRESSED does nothing, whatever its pins. -/
def Obligations.PressIgnoredInOtherModes : Prop :=
  ∀ (p : List Byte) (s : State), (s.mode = .configure ∨ s.mode = .diodeConfig ∨ s.mode = .diodeConfigDel) →
    exec (.btnPressed p) s = .next s

/-- `45_button_and_other_commands.md` R162 and R165: BTN_RELEASED and the unknown commands do nothing in any mode, beyond
the observation of the packet; the 244 unknown Command values are 0x00 and 0x0D to 0xFF. -/
def Obligations.ReleaseAndUnknownIgnored : Prop :=
  (∀ (p : List Byte) (s : State), exec (.btnReleased p) s = .next s) ∧
  (∀ (c : Byte) (p : List Byte) (s : State), exec (.unknown c p) s = .next s ∧
    deliver (.unknown c p) s = .next { s with obs := s.obs ++ [⟨c, p⟩] }) ∧
  (∀ p1 p2 : Byte, encode (.btnReleased [p1, p2]) = [0xAA, 0x04, 0x03, p1, p2, 0xB1 + p1 + p2]) ∧
  (∀ (c : Byte) (p : List Byte), p.length ≤ 253 → (c = 0x00 ∨ 0x0D ≤ c) →
    decode (frameBytes c p) = .ok (.unknown c p, []))

/-- `45_button_and_other_commands.md` R164, derived by the spec from R133 and R81: a STATUS_UPDATE received from the host
does nothing in any mode, whatever its payload, beyond the observation of the packet (92 D12, log entry 11). -/
def Obligations.InboundStatusIgnored : Prop :=
  ∀ (p : List Byte) (s : State), exec (.statusUpdate p) s = .next s ∧
    deliver (.statusUpdate p) s = .next { s with obs := s.obs ++ [⟨0x0C, p⟩] }

/-- `10_state.md` R22: the pins default to 0, and nothing reads the payload beyond them. -/
def Obligations.PinsReadFromPayloadOrZero : Prop :=
  (pin1 [] = 0 ∧ pin2 [] = 0) ∧ (∀ a, pin1 [a] = a ∧ pin2 [a] = 0) ∧
  (∀ a b rest, pin1 (a :: b :: rest) = a ∧ pin2 (a :: b :: rest) = b) ∧
  (∀ a b rest s, exec (.btnPressed (a :: b :: rest)) s = exec (.btnPressed [a, b]) s) ∧
  (∀ i j : Instr, i.command = j.command → i.WellFormed → j.WellFormed → i.payload.take 2 = j.payload.take 2 →
    ∀ s, exec i s = exec j s)

/-- `42_dispatch.md` R133: a command that is not global is forwarded to the active mode: RUN and CHECK_KEYBOARD answer
BTN_PRESSED and ignore the rest, the other three modes ignore everything. -/
def Obligations.PerModeCommandsForwarded : Prop :=
  (∀ (i : Instr) (s : State), i.WellFormed → globalByte i.command = false →
    exec i s = handlePacket i.command i.payload s) ∧
  (∀ (c : Byte) (p : List Byte) (s : State), (s.mode = .run ∨ ∃ i n, s.mode = .checkKeyboard i n) →
    (c = 0x02 → handlePacket c p s = pressResponse p s) ∧ (c ≠ 0x02 → handlePacket c p s = .next s)) ∧
  (∀ (c : Byte) (p : List Byte) (s : State), (s.mode = .configure ∨ s.mode = .diodeConfig ∨ s.mode = .diodeConfigDel) →
    handlePacket c p s = .next s)

/-- `42_dispatch.md` R134, derived by the spec from R130 and R133: the whole decision table, MODE by Command byte, as one
equation; every command completes in every mode (R135). That 0x04 enters with CK_NEXT_FIRE 0 is the spec's decision 92 D7, log
entry 7; that a raised error is kept in a log is the model's choice, log entry 12. -/
def Obligations.ExecIsTheDecisionTable : Prop :=
  ∀ (i : Instr) (s : State), i.WellFormed →
    exec i s = .next { s with
      mode := tableMode i.command s.mode
      tx := s.tx ++ tableReply i.command i.payload s.mode
      errs := s.errs ++ tableErrors i.command i.payload s.mode }

/-- The frame of the instructions, from the "state written" lines of R140 to R165 and `42_dispatch.md` R136 (derived): no
instruction touches RXBUF, INTERVAL, the waiting events or the observation stream; only a mode switch writes MODE; at most
one frame is emitted, by the five that emit; only BTN_PRESSED raises, at most one error. That the waiting events and the raised
errors stand in the state is the model's choice, log entries 1 and 12. -/
def Obligations.ExecFrame : Prop :=
  ∀ (i : Instr) (s t : State), i.WellFormed → exec i s = .next t →
    t.rxbuf = s.rxbuf ∧ t.interval = s.interval ∧ t.input = s.input ∧ t.obs = s.obs ∧
    (modeSwitchByte i.command = false → t.mode = s.mode) ∧
    (∃ fs, t.tx = s.tx ++ fs ∧ fs.length ≤ 1 ∧
      (i.command ∉ ([0x01, 0x02, 0x07, 0x08, 0x09] : List Byte) → fs = [])) ∧
    (∃ es, t.errs = s.errs ++ es ∧ es.length ≤ 1 ∧ (i.command ≠ 0x02 → es = [])) ∧
    (t.tx = s.tx ∨ t.errs = s.errs)

/-- `42_dispatch.md` R132: the effect of a global command does not depend on MODE, except that a mode switch overwrites it;
and ECHO and MODE_DIODE_CLEAR are acknowledged also right after a mode switch in the same `feed` call. That the mode is then the
one of the switch is R150 to R155; that 0x04 enters with CK_NEXT_FIRE 0 is the spec's decision 92 D7, log entry 7. -/
def Obligations.GlobalCommandsModeInvariant : Prop :=
  (∀ (i : Instr) (s : State) (m : Mode), globalByte i.command = true → i.WellFormed →
    ∃ t t', exec i s = .next t ∧ exec i { s with mode := m } = .next t' ∧
      t'.rxbuf = t.rxbuf ∧ t'.interval = t.interval ∧ t'.input = t.input ∧ t'.tx = t.tx ∧ t'.obs = t.obs ∧
      t'.errs = t.errs ∧
      (if modeSwitchByte i.command then t'.mode = t.mode else t.mode = s.mode ∧ t'.mode = m)) ∧
  (∀ (sw : Instr) (p : List Byte) (s : State), s.rxbuf = [] → sw.WellFormed → modeSwitchByte sw.command = true →
    p.length ≤ 253 →
    (∃ t fs, feed (encode sw ++ encode (.echo p)) s = .next t ∧
      t.tx = s.tx ++ fs ++ [[0xAA, 0x02, 0x01, 0xAD]] ∧ t.mode = tableMode sw.command s.mode) ∧
    (∃ t fs, feed (encode sw ++ encode (.modeDiodeClear p)) s = .next t ∧
      t.tx = s.tx ++ fs ++ [[0xAA, 0x02, 0x09, 0xB5]] ∧ t.mode = tableMode sw.command s.mode))

/-- `44_mode_switch_commands.md` R150: from every mode each of the five commands sets its own target, keeps nothing of the
old mode, does not read its payload, and no step but theirs and `Reset` changes which mode is active. That 0x04 enters with
CK_INDEX 1 and CK_NEXT_FIRE 0 is R151, the 0 being the spec's decision 92 D7, log entry 7; the numbers by which the modes are
named are its decision 92 D5, log entry 18. (The bound on RXBUF is the invariant R24, which `StepKeepsInvariant` states.) -/
def Obligations.ModeSwitchesReplaceTheMode : Prop :=
  (∀ (i : Instr) (s : State) (m : Mode) (j : Instr), modeSwitchByte i.command = true → j.command = i.command →
    i.WellFormed → j.WellFormed → exec i { s with mode := m } = exec j s) ∧
  (∀ (i : Instr) (s : State), i.WellFormed → ∃ t, exec i s = .next t ∧
    (i.command = 0x04 → t.mode = .checkKeyboard 1 0) ∧ (i.command = 0x05 → t.mode.code = 0) ∧
    (i.command = 0x06 → t.mode.code = 2) ∧ (i.command = 0x07 → t.mode.code = 3) ∧
    (i.command = 0x08 → t.mode.code = 4)) ∧
  (∀ s t : State, rxbufOk s.rxbuf = true → step s = .next t → t.mode.code ≠ s.mode.code →
    (∃ es, s.input = .reset :: es) ∨
    ∃ b es p, s.input = .rxByte b :: es ∧ t.obs = s.obs ++ [p] ∧ modeSwitchByte p.command = true)

/-! ## The Framer -/

/-- `40_framer.md` R102: in HUNT a byte other than 0xAA is discarded and leaves everything unchanged. -/
def Obligations.NoiseDiscardedInHunt : Prop :=
  (∀ (s : State) (b : Byte) (es : List Event), s.rxbuf = [] → b ≠ 0xAA →
    step { s with input := .rxByte b :: es } = .next { s with input := es }) ∧
  (∀ (s : State) (bs : List Byte), s.rxbuf = [] → (0xAA : Byte) ∉ bs → feed bs s = .next s)

/-- `40_framer.md` R105: a candidate whose last byte differs from the sum of the bytes before it is removed whole and a
framing error is raised; there is no packet, no frame, and nothing else changes; scanning resumes with the byte after it. -/
def Obligations.ChecksumMismatchDropsCandidate : Prop :=
  ∀ (s : State) (len b : Byte) (body : List Byte) (es : List Event),
    s.rxbuf ++ [b] = 0xAA :: len :: body → body.length = len.toNat → b ≠ sum8 s.rxbuf →
    step { s with input := .rxByte b :: es } =
      .next { s with rxbuf := [], input := es, errs := s.errs ++ [.framing .checksum] } ∧
    ∀ rest : List Byte, feed (b :: rest) s =
      feed rest { s with rxbuf := [], errs := s.errs ++ [.framing .checksum] }

/-- `40_framer.md` R104 and R107, the first derived and the second decided by the spec (92 D4, log entry 6): Length 0 ends the
candidate at once with a checksum error, Length 1 is dropped whatever its last byte. -/
def Obligations.ShortLengthsDropped : Prop :=
  (∀ (s : State) (es : List Event), s.rxbuf = [0xAA] →
    step { s with input := .rxByte 0x00 :: es } =
      .next { s with rxbuf := [], input := es, errs := s.errs ++ [.framing .checksum] }) ∧
  (∀ (s : State) (x : Byte) (es : List Event), s.rxbuf = [0xAA, 0x01] →
    step { s with input := .rxByte x :: es } =
      .next { s with
        rxbuf := []
        input := es
        errs := s.errs ++ [if x = 0xAB then .framing .length else .framing .checksum] })

/-- `40_framer.md` R111: a partial candidate waits for as long as it takes: a byte that does not complete it is only
collected, and no number of ticks ends the wait or touches RXBUF. -/
def Obligations.PartialCandidateWaits : Prop :=
  (∀ (s : State) (b : Byte) (es : List Event), rxbufOk (s.rxbuf ++ [b]) = true →
    step { s with input := .rxByte b :: es } = .next { s with rxbuf := s.rxbuf ++ [b], input := es }) ∧
  (∀ (ts : List Nat) (s : State) (es : List Event), ∃ t,
    run ts.length { s with input := ts.map Event.tick ++ es } = .next t ∧ t.rxbuf = s.rxbuf ∧ t.input = es ∧
    t.obs = s.obs ∧ t.errs = s.errs)

/-- `40_framer.md` R115: which byte sequences make packets does not depend on MODE, on the CHECK_KEYBOARD registers, on
INTERVAL or on any tick; and from HUNT the frame of any Command byte and payload yields exactly that packet. -/
def Obligations.FramerIndependentOfModeAndTicks : Prop :=
  (∀ (bs : List Byte) (s s' : State), s'.rxbuf = s.rxbuf →
    ∃ t t' ps, feed bs s = .next t ∧ feed bs s' = .next t' ∧ t'.rxbuf = t.rxbuf ∧
      t.obs = s.obs ++ ps ∧ t'.obs = s'.obs ++ ps) ∧
  (∀ (now : Nat) (s : State), ∃ t, tick now s = .next t ∧ t.rxbuf = s.rxbuf ∧ t.obs = s.obs) ∧
  (∀ (c : Byte) (p : List Byte) (s : State), s.rxbuf = [] → p.length ≤ 253 →
    ∃ t, feed (frameBytes c p) s = .next t ∧ t.rxbuf = [] ∧ t.obs = s.obs ++ [⟨c, p⟩])

/-- `40_framer.md` R108, derived by the spec from R101: feeding a byte sequence in two calls is feeding it in one, in every
state, so no cutting into chunks matters. -/
def Obligations.ChunkingDoesNotMatter : Prop :=
  ∀ (a b : List Byte) (s : State),
    ∃ t, feed a s = .next t ∧ feed (a ++ b) s = feed b t

/-- `40_framer.md` R100 and R108 (derived): one `feed` call is its bytes as events in order. That bytes come as single events is
the spec's decision 92 D1 and D3, and that the events wait in a list the model's form of it, log entry 1. -/
def Obligations.FeedIsByteEventsInOrder : Prop :=
  ∀ (bs : List Byte) (s : State) (es : List Event), rxbufOk s.rxbuf = true →
    run bs.length { s with input := bs.map Event.rxByte ++ es } = feed bs { s with input := es }

/-- `40_framer.md` R103, derived by the spec from R101: on every residue the byte-serial step on the registers PHASE, LENR,
CNT, SUM and BODY_MEM does exactly what the buffer algorithm does, and the two views are the same state (R25). The registers
that a step leaves, SUM among them (R109), are those of the RXBUF it leaves, so a parser that keeps the registers from byte to
byte agrees as well. The length test in both forms is the spec's decision 92 D4, log entry 6. That CNT answers 0 outside BODY, where R25 gives it no meaning, is the model's choice, log entry 23. -/
def Obligations.ByteSerialStepRefinesDrain : Prop :=
  (∀ (s : State) (b : Byte), rxbufOk s.rxbuf = true → rxByteSerial b s = rxByte b s) ∧
  (∀ (buf : List Byte) (b : Byte), rxbufOk buf = true →
    ((parserRegs buf).feedByte b).1 = parserRegs ((parserRegs buf).feedByte b).1.toRxbuf) ∧
  (∀ buf : List Byte, rxbufOk buf = true → (parserRegs buf).toRxbuf = buf) ∧
  (∀ buf : List Byte, rxbufOk buf = true → (parserRegs buf).cnt = buf.length - 2 ∧
    ((parserRegs buf).phase = .hunt ↔ buf.length = 0) ∧ ((parserRegs buf).phase = .len ↔ buf.length = 1))

/-- `40_framer.md` R110 (derived): after every received byte RXBUF holds at most 256 bytes, and from HUNT 0xAA, 0xFF and any 254
bytes leave it with exactly 256. -/
def Obligations.ResidueBounded : Prop :=
  (∀ (s t : State) (b : Byte) (es : List Event), s.input = .rxByte b :: es → step s = .next t →
    rxbufOk t.rxbuf = true ∧ t.rxbuf.length ≤ 256) ∧
  (∀ buf : List Byte, rxbufOk buf = true → buf.length ≤ 256) ∧
  ∀ (s : State) (body : List Byte), s.rxbuf = [] → body.length = 254 →
    feed (0xAA :: 0xFF :: body) s = .next { s with rxbuf := 0xAA :: 0xFF :: body } ∧
    rxbufOk (0xAA :: 0xFF :: body) = true ∧ (0xAA :: 0xFF :: body : List Byte).length = 256

/-- `40_framer.md` R113, derived by the spec from R102 and R103: from HUNT, noise free of 0xAA and then a well-formed frame
deliver exactly the packet of the frame, as if it had come alone, and end in HUNT. The packet is counted on the observation
stream, the spec's decision 92 D12, log entry 11. -/
def Obligations.ResynchronisesAfterNoise : Prop :=
  ∀ (s : State) (noise : List Byte) (i : Instr), s.rxbuf = [] → (0xAA : Byte) ∉ noise → i.WellFormed →
    feed (noise ++ encode i) s = deliver i s ∧
    ∃ t, deliver i s = .next t ∧ t.rxbuf = [] ∧ t.obs = s.obs ++ [⟨i.command, i.payload⟩]

/-- `40_framer.md` R114, derived by the spec from R103 and R72: from HUNT, a well-formed frame with exactly one bit flipped
in Command, payload or Checksum delivers no packet, ends in HUNT, and changes nothing but the error log, which is the model's
own, log entry 12. -/
def Obligations.SingleBitErrorsDetected : Prop :=
  ∀ (s : State) (i : Instr) (k j : Nat), s.rxbuf = [] → i.WellFormed → 2 ≤ k → k < (encode i).length → j < 8 →
    feed ((encode i).set k ((encode i).getD k 0 ^^^ (1#8 <<< j))) s =
      .next { s with errs := s.errs ++ [.framing .checksum] }

/-- `70_reset_and_hazards.md` R220, derived by the spec: an SOF in HUNT opens a candidate that takes the Length byte and as
many bytes as it says, whatever they are. If the candidate passes the decoder's tests its one packet is delivered, with at
most one frame and one error; if it fails one, that one framing error is raised and nothing else changes. What follows is read
from HUNT. That the length test is one of them is the spec's decision 92 D4, log entry 6; the observation stream and the error
log are log entries 11 and 12. -/
def Obligations.StraySofSwallowsLengthBytes : Prop :=
  ∀ (s : State) (len : Byte) (body rest : List Byte), s.rxbuf = [] → body.length = len.toNat →
    ∃ t, feed (0xAA :: len :: body) s = .next t ∧ t.rxbuf = [] ∧ feed (0xAA :: len :: (body ++ rest)) s = feed rest t ∧
      ((∃ i fs es, decodeCandidate (0xAA :: len :: body) = .ok i ∧ deliver i s = .next t ∧
          t = { s with
            mode := t.mode
            obs := s.obs ++ [⟨i.command, i.payload⟩]
            tx := s.tx ++ fs
            errs := s.errs ++ es } ∧
          fs.length ≤ 1 ∧ es.length ≤ 1) ∨
        ∃ c, decodeCandidate (0xAA :: len :: body) = .error c ∧ t = { s with errs := s.errs ++ [.framing c] })

/-- `70_reset_and_hazards.md` R222, derived by the spec: from every parser state 255 bytes 0x00 lead to HUNT and more of them
stay there, and so do any 256 bytes none of which is 0xAA. -/
def Obligations.FlushReachesHunt : Prop :=
  (∀ (s : State) (n : Nat), rxbufOk s.rxbuf = true → 255 ≤ n →
    ∃ t, feed (List.replicate n 0x00) s = .next t ∧ t.rxbuf = []) ∧
  (∀ (s : State) (bs : List Byte), rxbufOk s.rxbuf = true → 256 ≤ bs.length → (0xAA : Byte) ∉ bs →
    ∃ t, feed bs s = .next t ∧ t.rxbuf = [])

/-! ## The tick -/

/-- `46_tick.md` R170, R171, R172 and R176: a tick fires exactly in CHECK_KEYBOARD and once `now` has reached CK_NEXT_FIRE;
it then emits the status frame of the index without LED pairs, advances the index, and reschedules from `now`. It does
nothing otherwise. That a step with no event presented leaves the state as it is is the model's form of R211 and R214, log
entry 2 (deduced). -/
def Obligations.TickFiresWhenDue : Prop :=
  (∀ (s : State) (now next : Nat) (index : Fin 16) (es : List Event), s.mode = .checkKeyboard index next →
    (next ≤ now → ∃ index' : Fin 16, index'.val = 1 + index.val % 15 ∧
      step { s with input := .tick now :: es } = .next { s with
        mode := .checkKeyboard index' (now + s.interval)
        input := es
        tx := s.tx ++ [[0xAA, 0x05, 0x0C, BitVec.ofNat 8 index, BitVec.ofNat 8 index, 0x00,
          0xBB + 2 * BitVec.ofNat 8 index]] }) ∧
    (now < next → step { s with input := .tick now :: es } = .next { s with input := es })) ∧
  (∀ (s : State) (now : Nat) (es : List Event),
    (s.mode = .run ∨ s.mode = .configure ∨ s.mode = .diodeConfig ∨ s.mode = .diodeConfigDel) →
    step { s with input := .tick now :: es } = .next { s with input := es }) ∧
  (∀ s : State, s.input = [] → step s = .next s)

/-- `46_tick.md` R174 (derived): after a fire at `now`, ticks before `now + INTERVAL` do nothing, however many, and the first
one at or after it fires once: two fires of one stay are at least INTERVAL apart and missed periods are not replayed. -/
def Obligations.FiresAtLeastIntervalApart : Prop :=
  ∀ (s : State) (now next : Nat) (index : Fin 16) (ts : List Nat) (later : Nat) (es : List Event),
    s.mode = .checkKeyboard index next → next ≤ now → (∀ x ∈ ts, x < now + s.interval) → now + s.interval ≤ later →
    ∃ t, step { s with input := .tick now :: (ts.map Event.tick ++ .tick later :: es) } = .next t ∧
      t.tx.length = s.tx.length + 1 ∧
      run ts.length t = .next { t with input := .tick later :: es } ∧
      ∃ u, step { t with input := .tick later :: es } = .next u ∧ u.tx.length = t.tx.length + 1 ∧
        ∃ index', u.mode = .checkKeyboard index' (later + s.interval)

/-- `46_tick.md` R177: with CK_INDEX 1, as after entry to CHECK_KEYBOARD, N ticks of which the first fires and each of the
others comes at least INTERVAL after the one before emit the N fire frames with pins 1, 2, …, 15, 1, 2, … and empty LED lists; and with any ticks and any received bytes, as long as no
mode switch is delivered and no `Reset` comes, the fire frames emitted are a prefix of that sequence, the other frames
standing between them. -/
def Obligations.CheckKeyboardCycles : Prop :=
  (∀ (ts : List Nat) (s : State) (es : List Event) (due : Nat), s.mode = .checkKeyboard 1 due →
    (∀ first ∈ ts.head?, due ≤ first) → spacedBy s.interval ts = true → ∃ index next, run ts.length { s with input := ts.map Event.tick ++ es } = .next { s with
      mode := .checkKeyboard index next
      input := es
      tx := s.tx ++ fireFrames ts.length }) ∧
  (∀ (evs es : List Event) (s : State) (due : Nat), s.mode = .checkKeyboard 1 due → Event.reset ∉ evs →
    ∃ t fs ps, run evs.length { s with input := evs ++ es } = .next t ∧ t.tx = s.tx ++ fs ∧ t.obs = s.obs ++ ps ∧
      ((∀ p ∈ ps, modeSwitchByte p.command = false) →
        ∃ n, fs.filter (fun f => f.length = 7) = fireFrames n))

/-! ## The whole machine -/

/-- `60_exceptions.md` R188 and `42_dispatch.md` R135 (derived): no event stops the block, from any state. That a step with no
event presented answers a state too is log entry 2 (deduced); that no builder call is out of bounds, log entry 16. -/
def Obligations.StepNeverStops : Prop :=
  ∀ s : State, ∃ t, step s = .next t

/-- `10_state.md` R24 and `41_codec_tx.md` R125 (both derived by the spec), with R31, R21, R181 and R183: every step from
every state that meets the invariant keeps RXBUF a residue, CK_INDEX in 1 to 15, every frame ever emitted one of the 244 the
spec lists, every observed payload at most 253 bytes, and every error one the block raises. That the frames, the observations and
the errors stand in the state is log entries 10, 11 (92 D12) and 12. -/
def Obligations.StepKeepsInvariant : Prop :=
  ∀ s t : State, s.Inv → step s = .next t → t.Inv

/-- The reset state meets the invariant. The values after reset other than MODE are the spec's decision 92 D10, log entries 9, 10
and 12. -/
def Obligations.ResetMeetsInvariant : Prop := State.reset.Inv

/-- `00_scope.md` R8, `42_dispatch.md` R136, `46_tick.md` R175, `60_exceptions.md` R192 (the last three derived): a step takes
exactly one event, keeps INTERVAL, and unless the event is `Reset` appends at most one frame, one observation and one error,
rewriting nothing that was there. That events are taken one at a time is R8's own mark, the spec's decision 92 D1, and that the
step takes the first of a list of waiting events the model's form of it, log entry 1; a step with none waiting is log entry 2
(deduced). That INTERVAL is kept is log entry 4, the observation stream 92 D12, log entry 11, and the error log log entry 12.
(The bound on RXBUF is the invariant R24.) -/
def Obligations.StepTakesOneEvent : Prop :=
  ∀ s t : State, rxbufOk s.rxbuf = true → step s = .next t →
    t.input = s.input.tail ∧ t.interval = s.interval ∧
    (s.input.head? ≠ some .reset →
      (∃ fs, t.tx = s.tx ++ fs ∧ fs.length ≤ 1) ∧ (∃ ps, t.obs = s.obs ++ ps ∧ ps.length ≤ 1) ∧
      ∃ es, t.errs = s.errs ++ es ∧ es.length ≤ 1)

/-- `42_dispatch.md` R137: packets are dispatched on the receive side only: a tick observes no packet and does not change
which mode is active, and only a mode-switch command and `Reset` write MODE. That a step with no event presented changes
nothing is the model's form of R211 and R214, log entry 2 (deduced). -/
def Obligations.OnlyReceptionDispatches : Prop :=
  (∀ (s t : State) (now : Nat) (es : List Event), s.input = .tick now :: es → step s = .next t →
    t.obs = s.obs ∧ t.mode.code = s.mode.code ∧ t.rxbuf = s.rxbuf) ∧
  (∀ (s t : State) (b : Byte) (es : List Event), s.input = .rxByte b :: es → step s = .next t →
    ∃ ps, t.obs = s.obs ++ ps ∧ ((∀ p ∈ ps, modeSwitchByte p.command = false) → t.mode = s.mode)) ∧
  (∀ s t : State, s.input = [] → step s = .next t → t = s)

/-- `10_state.md` R20, R37, R38 (the observation stream is the spec's decision 92 D12; the error log is the model's own, log
entry 12): nothing that was emitted, observed or logged is ever read: two states that differ in these only step alike. -/
def Obligations.OutputsFeedBackIntoNothing : Prop :=
  ∀ (s t : State) (tx : List (List Byte)) (obs : List Packet) (errs : List ErrorKind),
    s.input.head? ≠ some .reset → step s = .next t →
    ∃ fs ps es, t.tx = s.tx ++ fs ∧ t.obs = s.obs ++ ps ∧ t.errs = s.errs ++ es ∧
      step { s with tx := tx, obs := obs, errs := errs } =
        .next { t with tx := tx ++ fs, obs := obs ++ ps, errs := errs ++ es }

/-- `60_exceptions.md` R193 (decided, 92 D11; log entry 17): a byte and a tick that come together commute up to the order of
their frames, unless the byte completes a mode switch. The two orders are two schedules, log entry 1 (92 D1). -/
def Obligations.ByteAndTickCommute : Prop :=
  ∀ (s : State) (b : Byte) (now : Nat) (es : List Event),
    ∃ t u ps, run 2 { s with input := .rxByte b :: .tick now :: es } = .next t ∧
      run 2 { s with input := .tick now :: .rxByte b :: es } = .next u ∧
      t.obs = s.obs ++ ps ∧ u.obs = t.obs ∧ u.rxbuf = t.rxbuf ∧ u.input = es ∧ t.input = es ∧ u.interval = t.interval ∧
      ((∀ p ∈ ps, modeSwitchByte p.command = false) → u.mode = t.mode ∧ u.errs = t.errs ∧ u.tx.Perm t.tx)

/-- `20_memory.md` R57: frames are dispatched in the order of the frames, each wholly before the next is looked at, and none
before its Checksum byte has come. -/
def Obligations.FramesDispatchedInOrder : Prop :=
  (∀ (is : List Instr) (s : State), s.rxbuf = [] → (∀ i ∈ is, i.WellFormed) →
    feed (is.flatMap encode) s = deliverAll is s) ∧
  (∀ (i : Instr) (s : State), s.rxbuf = [] → i.WellFormed →
    feed (encode i).dropLast s = .next { s with rxbuf := (encode i).dropLast } ∧
    feed [(encode i).getLastD 0] { s with rxbuf := (encode i).dropLast } = deliver i s)

/-- `20_memory.md` R55 at the port of `60_exceptions.md` R199 (the spec's own port list, 92 D2, log entry 20): in every state that meets the
invariant the bytes on `tx_data` are those of the emitted frames, contiguous and in order, with one `tx_last` for each. -/
def Obligations.TxPortCarriesWholeFrames : Prop :=
  ∀ s : State, s.Inv → s.txPort.map Prod.fst = s.tx.flatten ∧
    (s.txPort.map Prod.snd) = s.tx.flatMap fun f => List.replicate (f.length - 1) false ++ [true]
end

