-- ==== Sys2Proof/Laws/PerInstr.lean ====
section
/-! SUPPORT. Facts proved per constructor of `Instr`. `ByCommand`: a well-formed instruction is the one its Command byte and
payload select, so the command map loses nothing. -/

namespace Sys2Proof.Laws.ByCommand

/-- R80, R82, R87: the command map gives a well-formed instruction back. -/
def Statement (i : Instr) : Prop := i.WellFormed → ofCommand i.command i.payload = i

theorem echo (p : List Byte) : Statement (.echo p) := fun _ => rfl
theorem btnPressed (p : List Byte) : Statement (.btnPressed p) := fun _ => rfl
theorem btnReleased (p : List Byte) : Statement (.btnReleased p) := fun _ => rfl
theorem modeCheckKeyboard (p : List Byte) : Statement (.modeCheckKeyboard p) := fun _ => rfl
theorem modeRun (p : List Byte) : Statement (.modeRun p) := fun _ => rfl
theorem modeConfigure (p : List Byte) : Statement (.modeConfigure p) := fun _ => rfl
theorem modeDiodeConfig (p : List Byte) : Statement (.modeDiodeConfig p) := fun _ => rfl
theorem modeDiodeConfigDel (p : List Byte) : Statement (.modeDiodeConfigDel p) := fun _ => rfl
theorem modeDiodeClear (p : List Byte) : Statement (.modeDiodeClear p) := fun _ => rfl
theorem diodePressed (p : List Byte) : Statement (.diodePressed p) := fun _ => rfl
theorem diodeReleased (p : List Byte) : Statement (.diodeReleased p) := fun _ => rfl
theorem statusUpdate (p : List Byte) : Statement (.statusUpdate p) := fun _ => rfl

theorem unknown (c : Byte) (p : List Byte) : Statement (.unknown c p) := by
  intro h
  have hc : unnamedCommand c = true := by
    simp only [Instr.WellFormed, Instr.wellFormed, Bool.and_eq_true] at h
    exact h.1
  simp only [Instr.command, Instr.payload, ofCommand]
  split <;> first | rfl | exact absurd hc (by decide)

end Sys2Proof.Laws.ByCommand
end

