-- ==== Sys2Proof/Laws/Decode.lean ====
section
/-! SUPPORT. The checksum, the command map, and what the scanner and the candidate check answer. -/

namespace Sys2Proof

@[simp] theorem sum8_append (as bs : List Byte) : sum8 (as ++ bs) = sum8 as + sum8 bs := by
  induction as with
  | nil => simp [sum8]
  | cons a as ih => simp [sum8, ih, BitVec.add_assoc]

@[simp] theorem sum8_singleton (b : Byte) : sum8 [b] = b := by simp [sum8]

/-- R109: the running sum. -/
theorem sum8_concat (bs : List Byte) (b : Byte) : sum8 (bs ++ [b]) = sum8 bs + b := by simp

@[simp] theorem command_ofCommand (c : Byte) (p : List Byte) : (ofCommand c p).command = c := by
  unfold ofCommand
  split <;> rfl

@[simp] theorem payload_ofCommand (c : Byte) (p : List Byte) : (ofCommand c p).payload = p := by
  unfold ofCommand
  split <;> rfl

/-- R87: what the command map answers is well-formed when the payload fits. -/
theorem wellFormed_ofCommand (c : Byte) (p : List Byte) (hp : payloadFits p = true) : (ofCommand c p).WellFormed := by
  have hc : c ≠ 1 → c ≠ 2 → c ≠ 3 → c ≠ 4 → c ≠ 5 → c ≠ 6 → c ≠ 7 → c ≠ 8 → c ≠ 9 → c ≠ 10 → c ≠ 11 → c ≠ 12 →
      unnamedCommand c = true := by
    intros
    simp only [unnamedCommand, Bool.or_eq_true, beq_iff_eq, decide_eq_true_eq]
    bv_omega
  unfold ofCommand
  split <;> first | exact hp | (simp only [Instr.WellFormed, Instr.wellFormed, hp, Bool.and_true]; apply hc <;> assumption)

/-- R82, R87: the command map is inverse to Command byte and payload on well-formed instructions. -/
theorem ofCommand_command (i : Instr) (h : i.WellFormed) : ofCommand i.command i.payload = i := by
  cases i with
  | unknown c p => exact Laws.ByCommand.unknown c p h
  | _ => rfl

/-- R70: the payload of a well-formed instruction has at most 253 bytes. -/
theorem payload_le (i : Instr) (h : i.WellFormed) : i.payload.length ≤ 253 := by
  cases i <;> simp_all [Instr.WellFormed, Instr.wellFormed, payloadFits, Instr.payload, Config.maxPayload]

/-- R70: the frame field by field. -/
theorem frameBytes_eq (c : Byte) (p : List Byte) :
    frameBytes c p = Config.sof :: BitVec.ofNat 8 (p.length + 2) ::
      (c :: p ++ [sum8 (Config.sof :: BitVec.ofNat 8 (p.length + 2) :: c :: p)]) := rfl

/-- R71: the Length byte of a frame within bounds. -/
theorem length_byte (p : List Byte) (h : p.length ≤ 253) : (BitVec.ofNat 8 (p.length + 2)).toNat = p.length + 2 := by
  simp only [BitVec.toNat_ofNat]
  omega

/-- R101 steps 1 to 4: before the first SOF there is only noise. -/
theorem scan_noise (n buf : List Byte) (hn : Config.sof ∉ n) : scan (n ++ buf) = scan buf := by
  have : (n ++ buf).dropWhile (fun b => b != Config.sof) = buf.dropWhile (fun b => b != Config.sof) := by
    rw [List.dropWhile_append_of_pos]
    intro a ha
    simp only [bne_iff_ne, ne_eq]
    exact fun h => hn (h ▸ ha)
  unfold scan
  rw [this]

@[simp] theorem scan_nil : scan [] = .wait [] := rfl

@[simp] theorem scan_sof : scan [Config.sof] = .wait [Config.sof] := rfl

/-- R101 steps 4 and 5 at an SOF. -/
theorem scan_frame (len : Byte) (body : List Byte) :
    scan (Config.sof :: len :: body) =
      if body.length < len.toNat then .wait (Config.sof :: len :: body)
      else .cut (Config.sof :: len :: body.take len.toNat) (body.drop len.toNat) := rfl

/-- R102: one byte of noise. -/
theorem scan_skip (b : Byte) (buf : List Byte) (h : b ≠ Config.sof) : scan (b :: buf) = scan buf :=
  scan_noise [b] buf (by simpa using h.symm)

/-- R73, R76, R107: the tests on a candidate of at least two bytes, its last byte named. -/
theorem decodeCandidate_append (h : List Byte) (ck : Byte) :
    decodeCandidate (h ++ [ck]) =
      if ck ≠ sum8 h then .error .checksum
      else if (h ++ [ck]).getD 1 0 < 2 then .error .length
      else .ok (ofCommand ((h ++ [ck]).getD 2 0) ((h ++ [ck]).drop 3).dropLast) := by
  simp [decodeCandidate]

/-- R73, R76: a candidate with room for a Command byte. -/
theorem decodeCandidate_frame (s len c ck : Byte) (p : List Byte) (hl : ¬ len < 2) :
    decodeCandidate (s :: len :: c :: (p ++ [ck])) =
      if ck ≠ sum8 (s :: len :: c :: p) then .error .checksum else .ok (ofCommand c p) := by
  have : s :: len :: c :: (p ++ [ck]) = (s :: len :: c :: p) ++ [ck] := rfl
  rw [this, decodeCandidate_append]
  have hl' : ¬ len < 2#8 := hl
  simp [hl']

/-- R101: at a whole candidate the decoder answers what its tests answer. -/
theorem decode_candidate (len : Byte) (body rest : List Byte) (h : body.length = len.toNat) :
    decode (Config.sof :: len :: (body ++ rest)) =
      match decodeCandidate (Config.sof :: len :: body) with
      | .error c => .error (.framing c)
      | .ok i => .ok (i, rest) := by
  have hn : ¬ (body ++ rest).length < len.toNat := by simp [h]
  have hs : scan (Config.sof :: len :: (body ++ rest)) = .cut (Config.sof :: len :: body) rest :=
    (scan_frame len (body ++ rest)).trans ((if_neg hn).trans (by simp [← h]))
  cases hd : decodeCandidate (Config.sof :: len :: body) <;> simp [decode, hs, hd]

/-- R70 to R72: Length byte, size and Checksum of a frame within bounds. -/
theorem frameBytes_shape (c : Byte) (p : List Byte) (hp : p.length ≤ 253) :
    ((frameBytes c p).getD 1 0).toNat = p.length + 2 ∧ (frameBytes c p).length = p.length + 4 ∧
      (frameBytes c p).getLastD 0 = sum8 (frameBytes c p).dropLast := by
  refine ⟨?_, ?_, ?_⟩
  · rw [frameBytes_eq]; exact length_byte p hp
  · simp [frameBytes_eq]
  · simp only [frameBytes]
    rw [List.dropLast_concat]
    exact List.getLastD_concat

end Sys2Proof
end

