-- ==== Sys2Proof/Laws/Codec.lean ====
section
/-! SUPPORT. What the frame builders answer. -/

namespace Sys2Proof.Machine

/-- R120: within the payload bound `build` answers the frame. -/
theorem build_fits (c : Byte) (p : List Byte) (h : p.length ≤ 253) : build c p = some (frameBytes c p) := if_pos h

/-- R121, U4: beyond it `build` answers none. -/
theorem build_tooLong (c : Byte) (p : List Byte) (h : 253 < p.length) : build c p = none :=
  if_neg (Nat.not_le.mpr h)

/-- R122: the acknowledgement frame in closed form. -/
theorem buildNoPayload_eq (c : Byte) : buildNoPayload c = some (ackFrame c) := by
  have hck : (0xAA : Byte) + (0x02 + (c + 0)) = 0xAC + c := by bv_omega
  have hb : buildNoPayload c = some [0xAA, 0x02, c, (0xAA : Byte) + (0x02 + (c + 0))] := build_fits c [] (by decide)
  rw [hb, hck, ackFrame]

/-- R124, R125: the press status frame in closed form. -/
theorem status_press (p1 p2 : Byte) : status p1 p2 [(p1, p2)] = some (pressFrame p1 p2) := by
  have hck : (0xAA : Byte) + (0x07 + (0x0C + (p1 + (p2 + (0x01 + (p1 + (p2 + 0))))))) = 0xBE + 2 * (p1 + p2) := by bv_omega
  have hb : status p1 p2 [(p1, p2)] = some [0xAA, 0x07, 0x0C, p1, p2, 0x01, p1, p2,
      (0xAA : Byte) + (0x07 + (0x0C + (p1 + (p2 + (0x01 + (p1 + (p2 + 0)))))))] :=
    build_fits 0x0C [p1, p2, 0x01, p1, p2] (by simp)
  rw [hb, hck, pressFrame]

/-- R124, R125: the fire status frame in closed form. -/
theorem status_fire (i : Byte) : status i i [] = some (fireFrame i) := by
  have hck : (0xAA : Byte) + (0x05 + (0x0C + (i + (i + (0x00 + 0))))) = 0xBB + 2 * i := by bv_omega
  have hb : status i i [] = some [0xAA, 0x05, 0x0C, i, i, 0x00, (0xAA : Byte) + (0x05 + (0x0C + (i + (i + (0x00 + 0)))))] :=
    build_fits 0x0C [i, i, 0x00] (by simp)
  rw [hb, hck, fireFrame]

end Sys2Proof.Machine
end

