-- ==== Sys2Proof/Laws/State.lean ====
section
/-! SUPPORT. The fields of the state after each named update: one lemma per field that the update writes or leaves. -/

namespace Sys2Proof.Machine.State

variable (s : State)

@[simp] theorem txEmit_rxbuf (f : List Byte) : (s.txEmit f).rxbuf = s.rxbuf := rfl
@[simp] theorem txEmit_mode (f : List Byte) : (s.txEmit f).mode = s.mode := rfl
@[simp] theorem txEmit_interval (f : List Byte) : (s.txEmit f).interval = s.interval := rfl
@[simp] theorem txEmit_input (f : List Byte) : (s.txEmit f).input = s.input := rfl
@[simp] theorem txEmit_tx (f : List Byte) : (s.txEmit f).tx = s.tx ++ [f] := rfl
@[simp] theorem txEmit_obs (f : List Byte) : (s.txEmit f).obs = s.obs := rfl
@[simp] theorem txEmit_errs (f : List Byte) : (s.txEmit f).errs = s.errs := rfl

@[simp] theorem pktObs_rxbuf (c : Byte) (p : List Byte) : (s.pktObs c p).rxbuf = s.rxbuf := rfl
@[simp] theorem pktObs_mode (c : Byte) (p : List Byte) : (s.pktObs c p).mode = s.mode := rfl
@[simp] theorem pktObs_interval (c : Byte) (p : List Byte) : (s.pktObs c p).interval = s.interval := rfl
@[simp] theorem pktObs_input (c : Byte) (p : List Byte) : (s.pktObs c p).input = s.input := rfl
@[simp] theorem pktObs_tx (c : Byte) (p : List Byte) : (s.pktObs c p).tx = s.tx := rfl
@[simp] theorem pktObs_obs (c : Byte) (p : List Byte) : (s.pktObs c p).obs = s.obs ++ [⟨c, p⟩] := rfl
@[simp] theorem pktObs_errs (c : Byte) (p : List Byte) : (s.pktObs c p).errs = s.errs := rfl

@[simp] theorem setMode_rxbuf (m : Mode) : (s.setMode m).rxbuf = s.rxbuf := rfl
@[simp] theorem setMode_mode (m : Mode) : (s.setMode m).mode = m := rfl
@[simp] theorem setMode_interval (m : Mode) : (s.setMode m).interval = s.interval := rfl
@[simp] theorem setMode_input (m : Mode) : (s.setMode m).input = s.input := rfl
@[simp] theorem setMode_tx (m : Mode) : (s.setMode m).tx = s.tx := rfl
@[simp] theorem setMode_obs (m : Mode) : (s.setMode m).obs = s.obs := rfl
@[simp] theorem setMode_errs (m : Mode) : (s.setMode m).errs = s.errs := rfl

@[simp] theorem setRxbuf_rxbuf (b : List Byte) : (s.setRxbuf b).rxbuf = b := rfl
@[simp] theorem setRxbuf_mode (b : List Byte) : (s.setRxbuf b).mode = s.mode := rfl
@[simp] theorem setRxbuf_interval (b : List Byte) : (s.setRxbuf b).interval = s.interval := rfl
@[simp] theorem setRxbuf_input (b : List Byte) : (s.setRxbuf b).input = s.input := rfl
@[simp] theorem setRxbuf_tx (b : List Byte) : (s.setRxbuf b).tx = s.tx := rfl
@[simp] theorem setRxbuf_obs (b : List Byte) : (s.setRxbuf b).obs = s.obs := rfl
@[simp] theorem setRxbuf_errs (b : List Byte) : (s.setRxbuf b).errs = s.errs := rfl

@[simp] theorem raise_rxbuf (e : ErrorKind) : (s.raise e).rxbuf = s.rxbuf := rfl
@[simp] theorem raise_mode (e : ErrorKind) : (s.raise e).mode = s.mode := rfl
@[simp] theorem raise_interval (e : ErrorKind) : (s.raise e).interval = s.interval := rfl
@[simp] theorem raise_input (e : ErrorKind) : (s.raise e).input = s.input := rfl
@[simp] theorem raise_tx (e : ErrorKind) : (s.raise e).tx = s.tx := rfl
@[simp] theorem raise_obs (e : ErrorKind) : (s.raise e).obs = s.obs := rfl
@[simp] theorem raise_errs (e : ErrorKind) : (s.raise e).errs = s.errs ++ [e] := rfl

@[simp] theorem advanceFire_rxbuf (i : Fin 16) (now : Nat) : (s.advanceFire i now).rxbuf = s.rxbuf := rfl
@[simp] theorem advanceFire_mode (i : Fin 16) (now : Nat) : (s.advanceFire i now).mode = .checkKeyboard (nextIndex i) (now + s.interval) := rfl
@[simp] theorem advanceFire_interval (i : Fin 16) (now : Nat) : (s.advanceFire i now).interval = s.interval := rfl
@[simp] theorem advanceFire_input (i : Fin 16) (now : Nat) : (s.advanceFire i now).input = s.input := rfl
@[simp] theorem advanceFire_tx (i : Fin 16) (now : Nat) : (s.advanceFire i now).tx = s.tx := rfl
@[simp] theorem advanceFire_obs (i : Fin 16) (now : Nat) : (s.advanceFire i now).obs = s.obs := rfl
@[simp] theorem advanceFire_errs (i : Fin 16) (now : Nat) : (s.advanceFire i now).errs = s.errs := rfl

end Sys2Proof.Machine.State
end

