-- ==== Sys2Proof/Laws/Ops.lean ====
section
/-! SUPPORT. Everything the shared operations can do, and the effect of an instruction as data: its new mode, the frames it
emits, the errors it raises. `exec` always answers a next state (R135), and it is the state with those three applied. -/

namespace Sys2Proof.Machine

@[simp] theorem emit_some (f : List Byte) (s : State) : emit (some f) s = .next (s.txEmit f) := rfl

/-- R160, R183: the press rule answers one frame or one semantic error, and nothing else. -/
theorem pressResponse_eq (p : List Byte) (s : State) :
    pressResponse p s =
      if pinsInRange (pin1 p) (pin2 p) then .next (s.txEmit (pressFrame (pin1 p) (pin2 p)))
      else .next (s.raise (.semantic (pin1 p) (pin2 p))) := by
  simp only [pressResponse, status_press, emit_some]

/-- R133: the active mode answers BTN_PRESSED in two modes and ignores everything else. -/
theorem handlePacket_eq (c : Byte) (p : List Byte) (s : State) :
    handlePacket c p s =
      if c = 0x02 ∧ pressAnswered s.mode = true then pressResponse p s else .next s := by
  unfold handlePacket ignore
  cases s.mode <;> simp [pressAnswered]

/-- MODE after an instruction, R134. -/
def effMode : Instr → Mode → Mode
  | .modeCheckKeyboard _, _ => .checkKeyboard 1 0
  | .modeRun _, _ => .run
  | .modeConfigure _, _ => .configure
  | .modeDiodeConfig _, _ => .diodeConfig
  | .modeDiodeConfigDel _, _ => .diodeConfigDel
  | _, m => m

/-- The frames an instruction emits, R134. -/
def effTx : Instr → Mode → List (List Byte)
  | .echo _, _ => [ackFrame 0x01]
  | .modeDiodeClear _, _ => [ackFrame 0x09]
  | .modeDiodeConfig _, _ => [ackFrame 0x07]
  | .modeDiodeConfigDel _, _ => [ackFrame 0x08]
  | .btnPressed p, m => if pressAnswered m && pinsInRange (pin1 p) (pin2 p) then [pressFrame (pin1 p) (pin2 p)] else []
  | _, _ => []

/-- The errors an instruction raises, R135. -/
def effErrs : Instr → Mode → List ErrorKind
  | .btnPressed p, m => if pressAnswered m && !pinsInRange (pin1 p) (pin2 p) then [.semantic (pin1 p) (pin2 p)] else []
  | _, _ => []

/-- The state with the effect of an instruction applied. -/
def applyInstr (i : Instr) (s : State) : State :=
  { s with mode := effMode i s.mode, tx := s.tx ++ effTx i s.mode, errs := s.errs ++ effErrs i s.mode }

/-- R130, R135: everything an instruction can do. -/
theorem exec_eq (i : Instr) (s : State) : exec i s = .next (applyInstr i s) := by
  cases i with
  | btnPressed p =>
    simp only [exec, execBtnPressed, handlePacket_eq, pressResponse_eq, applyInstr, effMode, effTx, effErrs]
    cases h1 : pressAnswered s.mode <;> cases h2 : pinsInRange (pin1 p) (pin2 p) <;> simp [State.txEmit, State.raise]
  | btnReleased p => simp [exec, execBtnReleased, handlePacket_eq, applyInstr, effMode, effTx, effErrs]
  | statusUpdate p => simp [exec, execStatusUpdate, handlePacket_eq, applyInstr, effMode, effTx, effErrs]
  | echo p => simp [exec, execEcho, buildNoPayload_eq, applyInstr, effMode, effTx, effErrs, State.txEmit]
  | modeDiodeClear p => simp [exec, execModeDiodeClear, buildNoPayload_eq, applyInstr, effMode, effTx, effErrs, State.txEmit]
  | modeDiodeConfig p =>
    simp [exec, execModeDiodeConfig, buildNoPayload_eq, applyInstr, effMode, effTx, effErrs, State.txEmit, State.setMode]
  | modeDiodeConfigDel p =>
    simp [exec, execModeDiodeConfigDel, buildNoPayload_eq, applyInstr, effMode, effTx, effErrs, State.txEmit, State.setMode]
  | modeCheckKeyboard p => simp [exec, execModeCheckKeyboard, applyInstr, effMode, effTx, effErrs, State.setMode]
  | modeRun p => simp [exec, execModeRun, applyInstr, effMode, effTx, effErrs, State.setMode]
  | modeConfigure p => simp [exec, execModeConfigure, applyInstr, effMode, effTx, effErrs, State.setMode]
  | diodePressed p => simp [exec, execDiodePressed, applyInstr, effMode, effTx, effErrs]
  | diodeReleased p => simp [exec, execDiodeReleased, applyInstr, effMode, effTx, effErrs]
  | unknown c p => simp [exec, execUnknown, ignore, applyInstr, effMode, effTx, effErrs]

section
variable (i : Instr) (s : State)

@[simp] theorem applyInstr_rxbuf : (applyInstr i s).rxbuf = s.rxbuf := rfl
@[simp] theorem applyInstr_mode : (applyInstr i s).mode = effMode i s.mode := rfl
@[simp] theorem applyInstr_interval : (applyInstr i s).interval = s.interval := rfl
@[simp] theorem applyInstr_input : (applyInstr i s).input = s.input := rfl
@[simp] theorem applyInstr_tx : (applyInstr i s).tx = s.tx ++ effTx i s.mode := rfl
@[simp] theorem applyInstr_obs : (applyInstr i s).obs = s.obs := rfl
@[simp] theorem applyInstr_errs : (applyInstr i s).errs = s.errs ++ effErrs i s.mode := rfl

end

/-- R136: at most one frame. -/
theorem effTx_length_le (i : Instr) (m : Mode) : (effTx i m).length ≤ 1 := by
  unfold effTx
  split <;> (try split) <;> simp

/-- R192: at most one error. -/
theorem effErrs_length_le (i : Instr) (m : Mode) : (effErrs i m).length ≤ 1 := by
  unfold effErrs
  split <;> (try split) <;> simp

/-- R172: the index as a number. -/
@[simp] theorem nextIndex_val (i : Fin 16) : (nextIndex i).val = 1 + i.val % 15 := rfl

/-- R170, R172, R176: everything a tick can do. -/
theorem fire_eq (index : Fin 16) (now : Nat) (s : State) :
    fire index now s = .next ((s.advanceFire index now).txEmit (fireFrame (indexByte index))) := by
  simp only [fire, status_fire, emit_some]

end Sys2Proof.Machine
end

