-- ==== Sys2Proof/Laws/Framer.lean ====
section
/-! SUPPORT. The Framer as a pure parser followed by effects: `parse` says which errors and packets a buffer holds and what
is left of it, `applyItems` what they do to the state, and `feed` is the two together. -/

namespace Sys2Proof.Machine

/-- What the tests make of one candidate (R192). -/
inductive Item where
  | error (cause : FramingCause)
  | packet (i : Instr)
  deriving DecidableEq, Repr

/-- The item of a candidate. -/
def itemOf (f : List Byte) : Item :=
  match decodeCandidate f with
  | .error c => .error c
  | .ok i => .packet i

/-- The passes of `drain` on a buffer alone. -/
def items : Nat → List Byte → List Item × List Byte
  | 0, buf => ([], buf)
  | n + 1, buf =>
    match scan buf with
    | .wait residue => ([], residue)
    | .cut f rest => (itemOf f :: (items n rest).1, (items n rest).2)

/-- What an item does to the state. -/
def applyItem (s : State) : Item → State
  | .error c => s.raise (.framing c)
  | .packet i => applyInstr i (s.pktObs i.command i.payload)

/-- What a list of items does. -/
def applyItems (its : List Item) (s : State) : State := its.foldl applyItem s

/-- The items and the residue of a buffer. -/
def parse (buf : List Byte) : List Item × List Byte := items (buf.length + 1) buf

@[simp] theorem applyItems_nil (s : State) : applyItems [] s = s := rfl
@[simp] theorem applyItems_cons (i : Item) (its : List Item) (s : State) :
    applyItems (i :: its) s = applyItems its (applyItem s i) := rfl
theorem applyItems_append (as bs : List Item) (s : State) :
    applyItems (as ++ bs) s = applyItems bs (applyItems as s) := List.foldl_append

/-- Effects do not look at RXBUF. -/
theorem applyItem_setRxbuf (s : State) (b : List Byte) (i : Item) :
    applyItem (s.setRxbuf b) i = (applyItem s i).setRxbuf b := by
  cases i <;> rfl

theorem applyItems_setRxbuf (its : List Item) (s : State) (b : List Byte) :
    applyItems its (s.setRxbuf b) = (applyItems its s).setRxbuf b := by
  induction its generalizing s with
  | nil => rfl
  | cons i its ih => rw [applyItems_cons, applyItem_setRxbuf, ih, applyItems_cons]

theorem applyItem_rxbuf (s : State) (i : Item) : (applyItem s i).rxbuf = s.rxbuf := by
  cases i <;> rfl

theorem deliver_eq (i : Instr) (s : State) : deliver i s = .next (applyItem s (.packet i)) := exec_eq _ _

@[simp] theorem setRxbuf_setRxbuf (s : State) (a b : List Byte) : (s.setRxbuf a).setRxbuf b = s.setRxbuf b := rfl

/-- R101: everything `drain` can do. -/
theorem drain_eq (n : Nat) (s : State) :
    drain n s = .next ((applyItems (items n s.rxbuf).1 s).setRxbuf (items n s.rxbuf).2) := by
  induction n generalizing s with
  | zero => rfl
  | succ n ih =>
    unfold drain items
    cases hs : scan s.rxbuf with
    | wait r => rfl
    | cut f rest =>
      simp only [itemOf]
      cases hd : decodeCandidate f with
      | error c =>
        simp only
        rw [ih]
        show Host.Outcome.next _ = .next _
        rw [applyItems_cons]
        have : (s.setRxbuf rest).raise (.framing c) = (applyItem s (.error c)).setRxbuf rest := rfl
        rw [this, applyItems_setRxbuf]
        rfl
      | ok i =>
        simp only [deliver_eq]
        rw [ih, applyItems_cons, applyItem_setRxbuf, applyItems_setRxbuf]
        rfl

/-- R100: everything `feed` can do. -/
theorem feed_eq (bs : List Byte) (s : State) :
    feed bs s = .next ((applyItems (parse (s.rxbuf ++ bs)).1 s).setRxbuf (parse (s.rxbuf ++ bs)).2) := by
  rw [feed, drain_eq, applyItems_setRxbuf]
  rfl

/-- R101 step 5: a cut takes at least two bytes. -/
theorem scan_cut_length {buf f rest : List Byte} (h : scan buf = .cut f rest) : rest.length + 2 ≤ buf.length := by
  unfold scan at h
  have hl := (List.dropWhile_sublist (fun b => b != Config.sof) (l := buf)).length_le
  split at h
  · cases h
  · cases h
  · next b len body hw =>
    rw [hw] at hl
    split at h
    · cases h
    · cases h
      simp only [List.length_cons, List.length_drop] at *
      omega

/-- Passes beyond the length of the buffer change nothing. -/
theorem items_stable (n m : Nat) (buf : List Byte) (hn : buf.length < n) (hm : buf.length < m) :
    items n buf = items m buf := by
  induction n generalizing m buf with
  | zero => omega
  | succ n ih =>
    cases m with
    | zero => omega
    | succ m =>
      unfold items
      cases hs : scan buf with
      | wait r => rfl
      | cut f rest =>
        have := scan_cut_length hs
        simp only [ih m rest (by omega) (by omega)]

theorem parse_wait {buf r : List Byte} (h : scan buf = .wait r) : parse buf = ([], r) := by
  unfold parse items
  rw [h]

theorem parse_cut {buf f rest : List Byte} (h : scan buf = .cut f rest) :
    parse buf = (itemOf f :: (parse rest).1, (parse rest).2) := by
  have := scan_cut_length h
  have he : items buf.length rest = parse rest := items_stable _ _ _ (by omega) (by omega)
  unfold parse items
  rw [h]
  simp only [he]
  rfl

@[simp] theorem parse_nil : parse [] = ([], []) := rfl

/-- R102: noise in front changes nothing. -/
theorem parse_noise (n buf : List Byte) (hn : Config.sof ∉ n) : parse (n ++ buf) = parse buf := by
  have hs := scan_noise n buf hn
  cases h : scan buf with
  | wait r => rw [parse_wait (hs.trans h), parse_wait h]
  | cut f rest => rw [parse_cut (hs.trans h), parse_cut h]

/-- R101: with the first SOF at the front, a whole candidate is cut. -/
theorem parse_candidate (len : Byte) (body rest : List Byte) (h : body.length = len.toNat) :
    parse (Config.sof :: len :: (body ++ rest)) = (itemOf (Config.sof :: len :: body) :: (parse rest).1, (parse rest).2) := by
  apply parse_cut
  rw [scan_frame, if_neg (by simp [h])]
  simp [← h]

/-- R101 steps 3 and 4: a proper prefix of a candidate waits. -/
theorem parse_ok (buf : List Byte) (h : rxbufOk buf = true) : parse buf = ([], buf) := by
  apply parse_wait
  match buf, h with
  | [], _ => rfl
  | [b], h =>
    have : b = Config.sof := by simpa [rxbufOk] using h
    rw [this]; rfl
  | b :: len :: body, h =>
    simp only [rxbufOk, Bool.and_eq_true, beq_iff_eq, decide_eq_true_eq] at h
    rw [h.1.1, scan_frame, if_pos h.2]

/-- R24: what a scan leaves waiting is a residue. -/
theorem scan_wait_ok {buf r : List Byte} (h : scan buf = .wait r) : rxbufOk r = true := by
  have hd : ∀ b t, buf.dropWhile (fun b => b != Config.sof) = b :: t → b = Config.sof := by
    intro b t he
    have := List.head?_dropWhile_not (fun b => b != Config.sof) buf
    rw [he] at this
    simpa using this
  unfold scan at h
  split at h
  · cases h; rfl
  · next b hb => cases h; simp [rxbufOk, hd _ _ hb]
  · next b len body hb =>
    split at h
    · next hl =>
      cases h
      have : len ≠ 0 := by rintro rfl; simp at hl
      simp only [rxbufOk, hd _ _ hb, beq_self_eq_true, Bool.true_and, Bool.and_eq_true, decide_eq_true_eq]
      exact ⟨by bv_omega, hl⟩
    · cases h

/-- R24: after a drain RXBUF is a residue, whatever it was before. -/
theorem parse_residue_ok (buf : List Byte) : rxbufOk (parse buf).2 = true := by
  generalize hn : buf.length = n
  induction n using Nat.strong_induction_on generalizing buf with
  | _ n ih =>
    cases h : scan buf with
    | wait r => rw [parse_wait h]; exact scan_wait_ok h
    | cut f rest =>
      rw [parse_cut h]
      exact ih rest.length (by have := scan_cut_length h; omega) rest rfl

/-- R101 steps 1 and 2: what waits is the buffer less its noise. -/
theorem scan_wait_split {buf r : List Byte} (h : scan buf = .wait r) : ∃ n, Config.sof ∉ n ∧ buf = n ++ r := by
  refine ⟨buf.takeWhile (fun b => b != Config.sof), ?_, ?_⟩
  · intro hm
    have := List.mem_takeWhile_imp hm
    simp at this
  · have hr : r = buf.dropWhile (fun b => b != Config.sof) := by
      unfold scan at h
      split at h
      · next hb => cases h; exact hb.symm
      · next hb => cases h; exact hb.symm
      · next hb =>
        split at h
        · cases h; exact hb.symm
        · cases h
    rw [hr, List.takeWhile_append_dropWhile]

/-- R101: a cut is noise, one whole candidate, and the rest. -/
theorem scan_cut_split {buf f rest : List Byte} (h : scan buf = .cut f rest) :
    ∃ n len body, Config.sof ∉ n ∧ body.length = len.toNat ∧ f = Config.sof :: len :: body ∧
      buf = n ++ (Config.sof :: len :: (body ++ rest)) := by
  have hd : ∀ b t, buf.dropWhile (fun b => b != Config.sof) = b :: t → b = Config.sof := by
    intro b t he
    have := List.head?_dropWhile_not (fun b => b != Config.sof) buf
    rw [he] at this
    simpa using this
  have hn : Config.sof ∉ buf.takeWhile (fun b => b != Config.sof) := fun hm => by
    have := List.mem_takeWhile_imp hm
    simp at this
  unfold scan at h
  split at h
  · cases h
  · cases h
  · next b len body hb =>
    split at h
    · cases h
    · next hl =>
      cases h
      refine ⟨buf.takeWhile (fun b => b != Config.sof), len, body.take len.toNat, hn, ?_, ?_, ?_⟩
      · rw [List.length_take]; omega
      · rw [hd _ _ hb]
      · have he := List.takeWhile_append_dropWhile (p := fun b => b != Config.sof) (l := buf)
        rw [hb, hd _ _ hb] at he
        rw [List.take_append_drop, he]

/-- Conversely, noise, one whole candidate and a rest are cut so. -/
theorem scan_candidate (n : List Byte) (len : Byte) (body rest : List Byte) (hn : Config.sof ∉ n)
    (hb : body.length = len.toNat) :
    scan (n ++ (Config.sof :: len :: (body ++ rest))) = .cut (Config.sof :: len :: body) rest := by
  rw [scan_noise _ _ hn, scan_frame, if_neg (by simp [hb])]
  simp [← hb]

/-- R108: parsing in two pieces is parsing in one. -/
theorem parse_append (a b : List Byte) :
    parse (a ++ b) = ((parse a).1 ++ (parse ((parse a).2 ++ b)).1, (parse ((parse a).2 ++ b)).2) := by
  generalize hn : a.length = n
  induction n using Nat.strong_induction_on generalizing a with
  | _ n ih =>
    cases h : scan a with
    | wait r =>
      obtain ⟨noise, hno, rfl⟩ := scan_wait_split h
      rw [parse_wait h, List.append_assoc, parse_noise _ _ hno]
      simp
    | cut f rest =>
      obtain ⟨noise, len, body, hno, hb, rfl, rfl⟩ := scan_cut_split h
      have hab := scan_candidate noise len body (rest ++ b) hno hb
      have hlen := scan_cut_length h
      have happ : noise ++ (Config.sof :: len :: (body ++ rest)) ++ b =
          noise ++ (Config.sof :: len :: (body ++ (rest ++ b))) := by simp
      rw [parse_cut h, happ, parse_cut hab, ih rest.length (by omega) rest rfl]
      simp

/-- The packets among the items, as observations. -/
def packetsOf (its : List Item) : List Packet :=
  its.filterMap fun
    | .packet i => some ⟨i.command, i.payload⟩
    | .error _ => none

/-- R38: one observation for each packet, in order. -/
theorem applyItems_obs (its : List Item) (s : State) : (applyItems its s).obs = s.obs ++ packetsOf its := by
  induction its generalizing s with
  | nil => simp [packetsOf]
  | cons i its ih =>
    rw [applyItems_cons, ih]
    cases i with
    | error c => simp [applyItem, packetsOf]
    | packet i => simp [applyItem, packetsOf, State.pktObs]

theorem applyItems_input (its : List Item) (s : State) : (applyItems its s).input = s.input := by
  induction its generalizing s with
  | nil => rfl
  | cons i its ih => rw [applyItems_cons, ih]; cases i <;> rfl

theorem applyItems_interval (its : List Item) (s : State) : (applyItems its s).interval = s.interval := by
  induction its generalizing s with
  | nil => rfl
  | cons i its ih => rw [applyItems_cons, ih]; cases i <;> rfl

/-- Effects do not look at the waiting events. -/
theorem applyItems_withInput (its : List Item) (s : State) (es : List Event) :
    applyItems its { s with input := es } = { applyItems its s with input := es } := by
  induction its generalizing s with
  | nil => rfl
  | cons i its ih =>
    have h : applyItem { s with input := es } i = { applyItem s i with input := es } := by cases i <;> rfl
    rw [applyItems_cons, applyItems_cons, h, ih]

/-- R101: bytes that complete exactly one candidate. -/
theorem feed_candidate {s : State} {bs body : List Byte} {len : Byte} (h : s.rxbuf ++ bs = Config.sof :: len :: body)
    (hl : body.length = len.toNat) :
    feed bs s = .next ((applyItem s (itemOf (Config.sof :: len :: body))).setRxbuf []) := by
  have hp := parse_candidate len body [] hl
  rw [List.append_nil] at hp
  rw [feed_eq, h, hp]
  rfl

/-- R103: what one more byte makes of a residue: noise, a longer residue, or a whole candidate. -/
theorem rxbufOk_append {buf : List Byte} {b : Byte} (h : rxbufOk buf = true) :
    (buf = [] ∧ b ≠ Config.sof) ∨ rxbufOk (buf ++ [b]) = true ∨
      ∃ len body, buf ++ [b] = Config.sof :: len :: body ∧ body.length = len.toNat := by
  match buf, h with
  | [], _ =>
    by_cases hb : b = Config.sof
    · exact .inr (.inl (by simp [rxbufOk, hb]))
    · exact .inl ⟨rfl, hb⟩
  | [a], h =>
    have ha : a = Config.sof := by simpa [rxbufOk] using h
    subst ha
    by_cases hb : b = 0
    · exact .inr (.inr ⟨b, [], rfl, by simp [hb]⟩)
    · refine .inr (.inl ?_)
      have hn : b.toNat ≠ 0 := fun h => hb (BitVec.eq_of_toNat_eq h)
      simp only [List.singleton_append, rxbufOk, beq_self_eq_true, Bool.true_and, Bool.and_eq_true, decide_eq_true_eq]
      exact ⟨by bv_omega, by simp; omega⟩
  | a :: len :: body, h =>
    simp only [rxbufOk, Bool.and_eq_true, beq_iff_eq, decide_eq_true_eq] at h
    obtain ⟨⟨rfl, h1⟩, h2⟩ := h
    by_cases hl : body.length + 1 = len.toNat
    · exact .inr (.inr ⟨len, body ++ [b], rfl, by simp [hl]⟩)
    · refine .inr (.inl ?_)
      simp only [List.cons_append, rxbufOk, beq_self_eq_true, Bool.true_and, Bool.and_eq_true, decide_eq_true_eq]
      exact ⟨h1, by simp; omega⟩

end Sys2Proof.Machine
end

