-- ==== Sys2Proof/Laws/Step.lean ====
section
/-! SUPPORT. One equation per event: everything a step can do. -/

namespace Sys2Proof.Machine

variable {s : State} {es : List Event}

/-- R211: without an event the block waits. -/
theorem step_idle (h : s.input = []) : step s = .next s := by
  unfold step takeEvent
  rw [h]

/-- R210. -/
theorem step_reset (h : s.input = .reset :: es) : step s = .next (resetEvent { s with input := es }) := by
  unfold step takeEvent
  rw [h]

/-- R100. -/
theorem step_rxByte {b : Byte} (h : s.input = .rxByte b :: es) : step s = feed [b] { s with input := es } := by
  unfold step takeEvent
  rw [h]
  rfl

/-- R170. -/
theorem step_tick {now : Nat} (h : s.input = .tick now :: es) : step s = tick now { s with input := es } := by
  unfold step takeEvent
  rw [h]

/-- R170 to R172, R176: the two things a tick can do. -/
theorem tick_cases (now : Nat) (s : State) :
    (tick now s = .next s ∧ ∀ i n, s.mode = .checkKeyboard i n → now < n) ∨
    ∃ i n, s.mode = .checkKeyboard i n ∧ n ≤ now ∧
      tick now s = .next ((s.advanceFire i now).txEmit (fireFrame (indexByte i))) := by
  unfold tick
  cases hm : s.mode with
  | checkKeyboard i n =>
    by_cases h : n ≤ now
    · exact .inr ⟨i, n, rfl, h, by simp [fireDue, h, fire_eq]⟩
    · refine .inl ⟨by simp [fireDue, h], ?_⟩
      intro i' n' he
      cases he
      omega
  | _ => exact .inl ⟨rfl, by simp⟩

end Sys2Proof.Machine
end

