-- ==== Sys2Proof/Tests/Slice0.lean ====
section
/-! SUPPORT. The model's own tests. Expected bytes and states are those of `spec/95_test_vectors.md` (the vector or example
is named at each test) or are worked out from the rule named; no value is the model's own answer. The `witness_` theorems
show, for each statement with hypotheses, a concrete state and operands that meet all of them. -/

namespace Sys2Proof.Tests

set_option maxRecDepth 8000

open Sys2Proof.Machine

/-- A small state: RXBUF, MODE and the waiting events given, INTERVAL 100 as in the spec's vectors, nothing emitted. -/
def st (m : Mode) (rxbuf : List Byte) (input : List Event) : State :=
  { rxbuf := rxbuf, mode := m, interval := 100, input := input, tx := [], obs := [], errs := [] }

/-- The next state, if the outcome is one. -/
def after : Outcome → Option State
  | .next s => some s
  | .fault _ => none
  | .refused _ => none

/-- MODE and the three outputs after an outcome. -/
def seen (o : Outcome) : Option (Mode × List (List Byte) × List Packet × List ErrorKind) :=
  (after o).map fun s => (s.mode, s.tx, s.obs, s.errs)

/-- The instruction the decoder reads from a whole frame. -/
def read (bs : List Byte) : Option Instr :=
  match decode bs with
  | .ok (i, []) => some i
  | .ok (_, _ :: _) => none
  | .error _ => none

/-! ## WellFormed: an ill-formed term for each check -/

/-- R86: a payload of 254 bytes cannot be expressed. -/
theorem test_wf_refuses_254_bytes : ¬ (Instr.echo (List.replicate 254 0)).WellFormed := by decide
/-- R86: 253 bytes can. -/
theorem test_wf_accepts_253_bytes : (Instr.unknown 0x55 (List.replicate 253 0)).WellFormed := by decide
/-- R82: a named Command byte is no unknown command. -/
theorem test_wf_refuses_named_unknown : ¬ (Instr.unknown 0x0C []).WellFormed := by decide
/-- R82: the unknown values next to the named ones. -/
theorem test_wf_accepts_unknown : (Instr.unknown 0x00 []).WellFormed ∧ (Instr.unknown 0x0D []).WellFormed := by decide

/-! ## Decoding: a frame for every constructor, from the table of section 3 and the frames of section 4 -/

theorem test_decode_echo : read [0xAA, 0x04, 0x01, 0xDE, 0xAD, 0x3A] = some (.echo [0xDE, 0xAD]) := by decide
theorem test_decode_btnPressed : read [0xAA, 0x05, 0x02, 0x03, 0x07, 0x09, 0xC4] = some (.btnPressed [3, 7, 9]) := by decide
theorem test_decode_btnReleased : read [0xAA, 0x04, 0x03, 0x03, 0x07, 0xBB] = some (.btnReleased [3, 7]) := by decide
theorem test_decode_modeCheckKeyboard : read [0xAA, 0x02, 0x04, 0xB0] = some (.modeCheckKeyboard []) := by decide
theorem test_decode_modeRun : read [0xAA, 0x02, 0x05, 0xB1] = some (.modeRun []) := by decide
theorem test_decode_modeConfigure : read [0xAA, 0x02, 0x06, 0xB2] = some (.modeConfigure []) := by decide
theorem test_decode_modeDiodeConfig : read [0xAA, 0x03, 0x07, 0x09, 0xBD] = some (.modeDiodeConfig [9]) := by decide
theorem test_decode_modeDiodeConfigDel : read [0xAA, 0x02, 0x08, 0xB4] = some (.modeDiodeConfigDel []) := by decide
theorem test_decode_modeDiodeClear : read [0xAA, 0x02, 0x09, 0xB5] = some (.modeDiodeClear []) := by decide
theorem test_decode_diodePressed : read [0xAA, 0x04, 0x0A, 0x03, 0x07, 0xC2] = some (.diodePressed [3, 7]) := by decide
theorem test_decode_diodeReleased : read [0xAA, 0x04, 0x0B, 0x03, 0x07, 0xC3] = some (.diodeReleased [3, 7]) := by decide
theorem test_decode_statusUpdate :
    read [0xAA, 0x07, 0x0C, 0x03, 0x07, 0x01, 0x03, 0x07, 0xD2] = some (.statusUpdate [3, 7, 1, 3, 7]) := by decide
theorem test_decode_unknown : read [0xAA, 0x05, 0xFF, 0x01, 0x02, 0x03, 0xB4] = some (.unknown 0xFF [1, 2, 3]) := by decide
theorem test_decode_unknown_zero : read [0xAA, 0x03, 0x00, 0xAA, 0x57] = some (.unknown 0x00 [0xAA]) := by decide
/-- V2.2, V2.6, V2.5: the refusals by name. -/
theorem test_decode_refusals :
    decode [0xAA, 0x02, 0x01, 0xAE] = .error (.framing .checksum) ∧ decode [0xAA, 0x01, 0xAB] = .error (.framing .length) ∧
    decode [0xAA, 0x00] = .error (.framing .checksum) ∧ decode [0xAA, 0x04, 0x02] = .error .incomplete ∧
    decode [0x55, 0xAA] = .error .noSof := ⟨rfl, rfl, rfl, rfl, rfl⟩

/-- Every named row of the opcode table, by its match value. -/
theorem test_table_rows :
    [1, 2, 3, 4, 5, 6, 7, 8, 9, 10, 11, 12].map (decodeTableWord 8) =
      [some (.echo []), some (.btnPressed []), some (.btnReleased []), some (.modeCheckKeyboard []), some (.modeRun []),
        some (.modeConfigure []), some (.modeDiodeConfig []), some (.modeDiodeConfigDel []), some (.modeDiodeClear []),
        some (.diodePressed []), some (.diodeReleased []), some (.statusUpdate [])] := by decide
/-- The UNKNOWN row, with the Length bits zero, least and greatest. -/
theorem test_table_unknown :
    decodeTableWord 24 0xAA0000 = some (.unknown 0 []) ∧ decodeTableWord 24 0xAA02FF = some (.unknown 0xFF []) ∧
    decodeTableWord 24 0xAA0410 = some (.unknown 0x10 [0, 0]) := by decide
theorem test_table_longest : decodeTableWord 24 0xAAFF55 = some (.unknown 0x55 (List.replicate 253 0)) := by decide
/-- R107: Length 1 is no frame. -/
theorem test_table_length_one : decodeTableWord 24 0xAA0110 = none := by decide
/-- A placed word runs as the first instruction after reset (E1: pins 0, 0 are out of range in RUN). -/
theorem test_placed_words_run :
    seen (step (State.reset.withFetchWord 8 7)) = some (.diodeConfig, [[0xAA, 0x02, 0x07, 0xB3]], [⟨7, []⟩], []) ∧
    seen (step (State.reset.withFetchWord 8 2)) = some (.run, [], [⟨2, []⟩], [.semantic 0 0]) ∧
    seen (step (State.reset.withFetchWord 24 0xAA0000)) = some (.run, [], [⟨0, []⟩], []) := ⟨by decide, by decide, by decide⟩

/-! ## The commands: section 4, from the last byte of the frame -/

theorem test_echo_acknowledged :
    seen (step (st .configure [0xAA, 0x04, 0x01, 0xDE, 0xAD] [.rxByte 0x3A])) =
      some (.configure, [[0xAA, 0x02, 0x01, 0xAD]], [⟨0x01, [0xDE, 0xAD]⟩], []) := by decide
theorem test_diodeClear_keeps_mode :
    seen (step (st .diodeConfig [0xAA, 0x02, 0x09] [.rxByte 0xB5])) =
      some (.diodeConfig, [[0xAA, 0x02, 0x09, 0xB5]], [⟨0x09, []⟩], []) := by decide
theorem test_press_run :
    seen (step (st .run [0xAA, 0x04, 0x02, 0x03, 0x07] [.rxByte 0xBA])) =
      some (.run, [[0xAA, 0x07, 0x0C, 0x03, 0x07, 0x01, 0x03, 0x07, 0xD2]], [⟨0x02, [3, 7]⟩], []) := by decide
theorem test_press_checkKeyboard_keeps_schedule :
    seen (step (st (.checkKeyboard 2 150) [0xAA, 0x04, 0x02, 0x0F, 0x0F] [.rxByte 0xCE])) =
      some (.checkKeyboard 2 150, [[0xAA, 0x07, 0x0C, 0x0F, 0x0F, 0x01, 0x0F, 0x0F, 0xFA]], [⟨0x02, [15, 15]⟩], []) := by decide
/-- R163: one pin in range is not enough; 0, 16 and 255 are out of range. -/
theorem test_press_out_of_range :
    seen (exec (.btnPressed [0, 7]) (st .run [] [])) = some (.run, [], [], [.semantic 0 7]) ∧
    seen (exec (.btnPressed [1, 16]) (st .run [] [])) = some (.run, [], [], [.semantic 1 16]) ∧
    seen (exec (.btnPressed [255, 255]) (st .run [] [])) = some (.run, [], [], [.semantic 255 255]) ∧
    seen (exec (.btnPressed [3]) (st .run [] [])) = some (.run, [], [], [.semantic 3 0]) := ⟨by decide, by decide, by decide, by decide⟩
theorem test_press_configure_ignored : seen (exec (.btnPressed [0, 7]) (st .configure [] [])) = some (.configure, [], [], []) := by decide
theorem test_release_ignored : seen (exec (.btnReleased [0, 0]) (st .run [] [])) = some (.run, [], [], []) := by decide
theorem test_checkKeyboard_reentry :
    seen (exec (.modeCheckKeyboard []) (st (.checkKeyboard 9 700) [] [])) = some (.checkKeyboard 1 0, [], [], []) := by decide
theorem test_modeRun : seen (exec (.modeRun []) (st (.checkKeyboard 9 700) [] [])) = some (.run, [], [], []) := by decide
theorem test_modeConfigure : seen (exec (.modeConfigure [1]) (st .run [] [])) = some (.configure, [], [], []) := by decide
theorem test_modeDiodeConfig :
    seen (exec (.modeDiodeConfig [9]) (st .diodeConfig [] [])) = some (.diodeConfig, [[0xAA, 0x02, 0x07, 0xB3]], [], []) := by decide
theorem test_modeDiodeConfigDel :
    seen (exec (.modeDiodeConfigDel []) (st .diodeConfig [] [])) = some (.diodeConfigDel, [[0xAA, 0x02, 0x08, 0xB4]], [], []) := by decide
theorem test_diode_observed_only :
    seen (deliver (.diodePressed [3, 7]) (st .run [] [])) = some (.run, [], [⟨0x0A, [3, 7]⟩], []) ∧
    seen (deliver (.diodeReleased []) (st .run [] [])) = some (.run, [], [⟨0x0B, []⟩], []) := ⟨by decide, by decide⟩
theorem test_status_inbound_ignored : seen (exec (.statusUpdate [3, 7, 1, 3, 7]) (st .run [] [])) = some (.run, [], [], []) := by decide
theorem test_unknown_ignored : seen (deliver (.unknown 0xFF []) (st .run [] [])) = some (.run, [], [⟨0xFF, []⟩], []) := by decide

/-! ## The Framer: section 2, by `feed` in RUN and HUNT -/

/-- RXBUF beside what is seen. -/
def fed (bs : List Byte) : Option (List Byte × List (List Byte) × List Packet × List ErrorKind) :=
  (after (feed bs (st .run [] []))).map fun s => (s.rxbuf, s.tx, s.obs, s.errs)

/-- V2.3. -/
theorem test_feed_noise :
    fed [0x00, 0x55, 0xFF, 0xAB, 0xAA, 0x02, 0x01, 0xAD] = some ([], [[0xAA, 0x02, 0x01, 0xAD]], [⟨1, []⟩], []) := by decide
/-- V2.4. -/
theorem test_feed_stray_sof :
    fed [0xAA, 0x06, 0xAA, 0x02, 0x01, 0xAD, 0xAA, 0x02, 0x09, 0xB5] = some ([], [], [], [.framing .checksum]) := by decide
/-- V2.5. -/
theorem test_feed_length_zero :
    fed [0xAA, 0x00, 0xAA, 0x02, 0x01, 0xAD] = some ([], [[0xAA, 0x02, 0x01, 0xAD]], [⟨1, []⟩], [.framing .checksum]) := by decide
/-- V2.6. -/
theorem test_feed_length_one :
    fed [0xAA, 0x01, 0xAB, 0xAA, 0x02, 0x01, 0xAD] = some ([], [[0xAA, 0x02, 0x01, 0xAD]], [⟨1, []⟩], [.framing .length]) := by decide
/-- V2.7. -/
theorem test_feed_false_accept :
    fed [0xAA, 0x02, 0x02, 0xAE, 0x00, 0x00, 0x00, 0x60] = some ([], [], [⟨2, []⟩], [.semantic 0 0]) := by decide
/-- V2.10. -/
theorem test_feed_sof_as_length : fed [0xAA, 0xAA, 0x02, 0x01, 0xAD] = some ([0xAA, 0xAA, 0x02, 0x01, 0xAD], [], [], []) := by decide
/-- V2.12: the register view of the residue. -/
theorem test_registers : parserRegs [0xAA, 0x04, 0x02, 0x03] = .body 0x04 0xB3 [0x02, 0x03] := by decide
/-- V2.12 in the byte-serial form, from P2 row 2 (SUM 0xB0). -/
theorem test_serial_byte : (ParserRegs.body 0x04 0xB0 [0x02]).feedByte 0x03 = (.body 0x04 0xB3 [0x02, 0x03], .quiet) := by decide

/-! ## Builders: section 3 -/

theorem test_build_status_two_pairs :
    status 2 9 [(1, 1), (2, 0)] = some [0xAA, 0x09, 0x0C, 0x02, 0x09, 0x02, 0x01, 0x01, 0x02, 0x00, 0xD0] := by decide
theorem test_build_largest : build 0x55 (List.replicate 253 0) = some (0xAA :: 0xFF :: 0x55 :: (List.replicate 253 0 ++ [0xFE])) := by decide
theorem test_build_refuses_254 : build 0x55 (List.replicate 254 0) = none := by decide
theorem test_build_with_pins : buildWithPins 0x02 3 7 = some [0xAA, 0x04, 0x02, 0x03, 0x07, 0xBA] := by decide

/-! ## Ticks and reset: sections 6 and 7 -/

/-- V6.11. -/
theorem test_fire_wraps :
    seen (step (st (.checkKeyboard 15 1000) [] [.tick 1003])) =
      some (.checkKeyboard 1 1103, [[0xAA, 0x05, 0x0C, 0x0F, 0x0F, 0x00, 0xD9]], [], []) := by decide
/-- V6.5: equality fires. -/
theorem test_fire_at_equality :
    seen (step (st (.checkKeyboard 2 5100) [] [.tick 5100])) =
      some (.checkKeyboard 3 5200, [[0xAA, 0x05, 0x0C, 0x02, 0x02, 0x00, 0xBF]], [], []) := by decide
/-- V6.4. -/
theorem test_no_fire_early : seen (step (st (.checkKeyboard 2 5100) [] [.tick 5099])) = some (.checkKeyboard 2 5100, [], [], []) := by decide
/-- V6.14: a tick never touches RXBUF. -/
theorem test_tick_keeps_rxbuf :
    (after (step (st (.checkKeyboard 2 150) [0xAA, 0x04, 0x02] [.tick 200]))).map State.rxbuf = some [0xAA, 0x04, 0x02] := by decide
/-- V6.1. -/
theorem test_tick_run : seen (step (st .run [] [.tick 1000000000])) = some (.run, [], [], []) := by decide
/-- V7.1. -/
theorem test_reset_event :
    after (step (st (.checkKeyboard 9 700) [0xAA, 0x04, 0x02] [.reset, .tick 10000])) = some (st .run [] [.tick 10000]) := by decide
/-- R211, R214: without an event the block waits. -/
theorem test_idle : after (step (st .run [0xAA] [])) = some (st .run [0xAA] []) := by decide
/-- R199: the ports. -/
theorem test_ports :
    ({ st .diodeConfigDel [] [] with tx := [[0xAA, 0x02, 0x01, 0xAD]] } : State).txPort =
      [(0xAA, false), (0x02, false), (0x01, false), (0xAD, true)] ∧ (st .diodeConfigDel [] []).modePort = 4 := by decide

/-! ## Witnesses: the hypotheses of the statements are met -/

/-- A state that meets the invariant with every part of it at work. -/
def busy : State :=
  { rxbuf := [0xAA, 0x04, 0x02], mode := .checkKeyboard 15 1000, interval := 100, input := [.rxByte 0x03],
    tx := [fireFrame 15], obs := [⟨0x04, []⟩], errs := [.framing .checksum, .semantic 0 7] }

theorem witness_StepKeepsInvariant : busy.Inv ∧ ∃ t, step busy = .next t :=
  ⟨⟨by decide, by decide, fun f hf => by
      simp only [busy, List.mem_singleton] at hf
      exact .inr (.inr ⟨15, by decide, hf⟩), by decide, by decide⟩, _, rfl⟩

theorem witness_TxPortCarriesWholeFrames : busy.Inv := witness_StepKeepsInvariant.1

theorem witness_DecodeEncodeRoundTrip :
    (Instr.unknown 0x0D (List.replicate 253 0xAA)).WellFormed ∧ (Instr.btnPressed []).WellFormed := by decide

theorem witness_DecodeAcceptsOnlyEncodings :
    decode [0xAA, 0x02, 0x01, 0xAD, 0x55] = .ok (.echo [], [0x55]) := rfl

theorem witness_BuiltFramesObeyLengthAndChecksumLaws :
    build 0x01 [] = some [0xAA, 0x02, 0x01, 0xAD] ∧ decode [0xAA, 0x02, 0x01, 0xAD] = .ok (.echo [], []) := ⟨rfl, rfl⟩

theorem witness_BuildAnswersTheWireFrame :
    (List.replicate 253 (0 : Byte)).length ≤ 253 ∧ build 0x01 [] = some [0xAA, 0x02, 0x01, 0xAD] := by decide

theorem witness_StatusFrameLayout :
    (List.replicate 125 ((1, 2) : Byte × Byte)).length ≤ 125 ∧ 125 < (List.replicate 126 ((1, 2) : Byte × Byte)).length ∧
    124 < (List.replicate 125 ((1, 2) : Byte × Byte)).length := by decide

theorem witness_BuilderWrappersAndBound : 253 < (List.replicate 254 (0 : Byte)).length := by decide

theorem witness_PlacedWordRunsNext : decodeTableWord 8 1 = some (.echo []) := by decide

theorem witness_StepRunsDecodedInstruction :
    decode ((st .run [0xAA, 0x04, 0x02, 0x03, 0x07] []).rxbuf ++ [0xBA]) = .ok (.btnPressed [3, 7], []) ∧
    1 < (Instr.btnPressed [3, 7]).payload.length := ⟨rfl, by decide⟩

theorem witness_RunAndConfigureSwitchSilently :
    exec (.modeConfigure []) (st .run [] []) = .next (st .configure [] []) ∧
    exec (.modeRun []) (st (.checkKeyboard 9 700) [] []) = .next (st .run [] []) ∧
    (Instr.btnPressed [3, 7]).WellFormed ∧ globalByte (Instr.btnPressed [3, 7]).command = false :=
  ⟨rfl, rfl, by decide, by decide⟩

theorem witness_CheckKeyboardEntryArmsTheTimer :
    exec (.modeCheckKeyboard []) (st .run [] []) = .next (st (.checkKeyboard 1 0) [] []) := rfl

theorem witness_PressAnswered_in_range :
    (st .run [] []).mode = .run ∧ (pin1 [1, 15]).toNat = 1 ∧ (pin2 [1, 15]).toNat = 15 := by decide
theorem witness_PressAnswered_out_of_range :
    (st (.checkKeyboard 2 150) [] []).mode = .checkKeyboard 2 150 ∧ (pin1 [0, 7]).toNat = 0 ∧ (pin2 [7, 16]).toNat = 16 := by decide

theorem witness_PressIgnoredInOtherModes :
    (st .configure [] []).mode = .configure ∧ (st .diodeConfig [] []).mode = .diodeConfig ∧
    (st .diodeConfigDel [] []).mode = .diodeConfigDel := by decide

theorem witness_ReleaseAndUnknownIgnored : ([] : List Byte).length ≤ 253 ∧ (0x0D : Byte) ≤ 0x0D ∧ (0x0D : Byte) ≤ 0xFF := by decide

theorem witness_PinsReadFromPayloadOrZero :
    (Instr.btnPressed [3, 7, 9]).command = (Instr.btnPressed [3, 7]).command ∧ (Instr.btnPressed [3, 7, 9]).WellFormed ∧
    (Instr.btnPressed [3, 7]).WellFormed ∧
    (Instr.btnPressed [3, 7, 9]).payload.take 2 = (Instr.btnPressed [3, 7]).payload.take 2 := by decide

theorem witness_PerModeCommandsForwarded :
    (Instr.unknown 0x00 []).WellFormed ∧ globalByte (Instr.unknown 0x00 []).command = false ∧
    (Instr.statusUpdate []).WellFormed ∧ globalByte (Instr.statusUpdate []).command = false ∧
    (st .run [] []).mode = .run ∧ (st .configure [] []).mode = .configure := by decide

theorem witness_ExecFrame :
    (Instr.btnPressed [3, 7]).WellFormed ∧ ∃ t, exec (.btnPressed [3, 7]) busy = .next t := ⟨by decide, _, rfl⟩

theorem witness_ExecIsTheDecisionTable : (Instr.unknown 0xFF [1, 2, 3]).WellFormed ∧ (Instr.modeRun []).WellFormed := by decide

theorem witness_GlobalCommandsModeInvariant :
    globalByte (Instr.modeDiodeClear []).command = true ∧ (Instr.modeDiodeClear []).WellFormed ∧
    (Instr.modeConfigure []).WellFormed ∧ modeSwitchByte (Instr.modeConfigure []).command = true ∧
    (st .run [] []).rxbuf = [] ∧ ([] : List Byte).length ≤ 253 := by decide

theorem witness_ModeSwitchesReplaceTheMode :
    modeSwitchByte (Instr.modeDiodeConfigDel []).command = true ∧
    (Instr.modeDiodeConfigDel [1]).command = (Instr.modeDiodeConfigDel []).command ∧
    (Instr.modeDiodeConfigDel [1]).WellFormed ∧ (Instr.modeDiodeConfigDel []).WellFormed ∧
    rxbufOk (st .run [0xAA, 0x02, 0x06] [.rxByte 0xB2]).rxbuf = true ∧
    (after (step (st .run [0xAA, 0x02, 0x06] [.rxByte 0xB2]))).map (fun t => t.mode.code) = some 2 := by decide

theorem witness_NoiseDiscardedInHunt :
    (st .run [] []).rxbuf = [] ∧ (0xAB : Byte) ≠ 0xAA ∧ (0xAA : Byte) ∉ ([0x00, 0x55, 0xFF] : List Byte) := by decide

theorem witness_ChecksumMismatchDropsCandidate :
    (st .run [0xAA, 0x02, 0x01] []).rxbuf ++ [0xAE] = 0xAA :: 0x02 :: [0x01, 0xAE] ∧
    ([0x01, 0xAE] : List Byte).length = (0x02 : Byte).toNat ∧
    (0xAE : Byte) ≠ sum8 (st .run [0xAA, 0x02, 0x01] []).rxbuf := by decide

theorem witness_ShortLengthsDropped :
    (st .run [0xAA] []).rxbuf = [0xAA] ∧ (st .run [0xAA, 0x01] []).rxbuf = [0xAA, 0x01] := by decide

theorem witness_PartialCandidateWaits :
    rxbufOk ((st .run [0xAA, 0xFF] []).rxbuf ++ [0xAA]) = true ∧ rxbufOk ((st .run [] []).rxbuf ++ [0xAA]) = true := by decide

theorem witness_FramerIndependentOfModeAndTicks :
    (st .configure [0xAA, 0x02] []).rxbuf = (st (.checkKeyboard 3 9) [0xAA, 0x02] []).rxbuf ∧
    (st .run [] []).rxbuf = [] ∧ (List.replicate 253 (0xAA : Byte)).length ≤ 253 := by decide

theorem witness_FeedIsByteEventsInOrder : rxbufOk (st .run [0xAA, 0x02] []).rxbuf = true := by decide

theorem witness_ByteSerialStepRefinesDrain :
    rxbufOk [] = true ∧ rxbufOk [0xAA] = true ∧ rxbufOk [0xAA, 0x01] = true ∧ rxbufOk [0xAA, 0x02, 0x01] = true := by decide

theorem witness_ResidueBounded :
    (st .run [0xAA] [.rxByte 0xFF]).input = [.rxByte 0xFF] ∧
    (after (step (st .run [0xAA] [.rxByte 0xFF]))).isSome = true ∧
    (st .run [] []).rxbuf = [] ∧ (List.replicate 254 (0xAA : Byte)).length = 254 := by decide

theorem witness_ResynchronisesAfterNoise :
    (st .run [] []).rxbuf = [] ∧ (0xAA : Byte) ∉ ([0x00, 0x13, 0xFF] : List Byte) ∧ (Instr.echo []).WellFormed := by decide

theorem witness_SingleBitErrorsDetected :
    (st .run [] []).rxbuf = [] ∧ (Instr.btnPressed [3, 7]).WellFormed ∧ 2 ≤ 5 ∧
    5 < (encode (.btnPressed [3, 7])).length ∧ 7 < 8 := by decide

theorem witness_StraySofSwallowsLengthBytes :
    (st .run [] []).rxbuf = [] ∧ ([0xAA, 0x02, 0x01, 0xAD, 0xAA, 0x02] : List Byte).length = (0x06 : Byte).toNat := by decide

theorem witness_FlushReachesHunt :
    rxbufOk [0xAA, 0xFF, 0x02] = true ∧ 255 ≤ 255 ∧ 256 ≤ (List.replicate 256 (0xFF : Byte)).length ∧
    (0xAA : Byte) ∉ ([0xFF] : List Byte) := by decide
theorem witness_FlushReachesHunt_bytes : (0xAA : Byte) ∉ List.replicate 256 (0xFF : Byte) := by
  intro h
  exact absurd (List.eq_of_mem_replicate h) (by decide)

theorem witness_TickFiresWhenDue :
    (st (.checkKeyboard 15 1000) [] []).mode = .checkKeyboard 15 1000 ∧ 1000 ≤ 1000 ∧ 999 < 1000 ∧
    (st .diodeConfig [] []).mode = .diodeConfig ∧ (st .run [] []).input = [] := by decide

theorem witness_FiresAtLeastIntervalApart :
    (st (.checkKeyboard 1 0) [] []).mode = .checkKeyboard 1 0 ∧ 0 ≤ 5000 ∧
    (∀ x ∈ [5050, 5099], x < 5000 + (st (.checkKeyboard 1 0) [] []).interval) ∧
    5000 + (st (.checkKeyboard 1 0) [] []).interval ≤ 5100 := by decide

theorem witness_CheckKeyboardCycles :
    (st (.checkKeyboard 1 0) [] []).mode = .checkKeyboard 1 0 ∧ (∀ first ∈ [1000, 1100, 1250].head?, 0 ≤ first) ∧
    spacedBy (st (.checkKeyboard 1 0) [] []).interval [1000, 1100, 1250] = true ∧
    Event.reset ∉ [Event.tick 1000, .rxByte 0xAA, .tick 1001] := by decide

theorem witness_StepTakesOneEvent :
    rxbufOk busy.rxbuf = true ∧ busy.input.head? ≠ some .reset ∧ (after (step busy)).isSome = true := by decide

theorem witness_OnlyReceptionDispatches :
    (st .run [] [.tick 5]).input = [.tick 5] ∧ (after (step (st .run [] [.tick 5]))).isSome = true ∧
    (after (step busy)).map State.obs = some (busy.obs ++ []) ∧ (after (step (st .run [] []))).isSome = true := by decide

theorem witness_OutputsFeedBackIntoNothing : busy.input.head? ≠ some .reset ∧ (after (step busy)).isSome = true := by decide

theorem witness_ByteAndTickCommute :
    ∀ p ∈ ([⟨0x01, []⟩] : List Packet), modeSwitchByte p.command = false := by decide

theorem witness_FramesDispatchedInOrder :
    (st .run [] []).rxbuf = [] ∧ ∀ i ∈ [Instr.modeConfigure [], .echo []], i.WellFormed := by decide

end Sys2Proof.Tests
end

