-- ==== Sys2Proof/Proofs/Pins.lean ====
section
/-! PROOF. The payload is read through its two pins alone (`10_state.md` R22): first what the pins are, then that the press
rule, and with it every command, depends on a payload through them only. -/

namespace Sys2Proof.Machine

@[simp] theorem pin1_nil : pin1 [] = 0 := rfl
@[simp] theorem pin2_nil : pin2 [] = 0 := rfl
@[simp] theorem pin1_cons (a : Byte) (rest : List Byte) : pin1 (a :: rest) = a := rfl
@[simp] theorem pin2_singleton (a : Byte) : pin2 [a] = 0 := rfl
@[simp] theorem pin2_cons_cons (a b : Byte) (rest : List Byte) : pin2 (a :: b :: rest) = b := rfl

@[simp] theorem pin1_take_two (p : List Byte) : pin1 (p.take 2) = pin1 p := by
  simp [pin1]

@[simp] theorem pin2_take_two (p : List Byte) : pin2 (p.take 2) = pin2 p := by
  simp [pin2]

/-- R160: the press rule reads the first two payload bytes only. -/
theorem pressResponse_take_two (p : List Byte) (s : State) : pressResponse (p.take 2) s = pressResponse p s := by
  simp only [pressResponse_eq, pin1_take_two, pin2_take_two]

/-- R133: so does the active mode, whatever the command. -/
theorem handlePacket_take_two (c : Byte) (p : List Byte) (s : State) :
    handlePacket c (p.take 2) s = handlePacket c p s := by
  simp only [handlePacket_eq, pressResponse_take_two]

/-- R22: no command reads a payload byte beyond the second. BTN_PRESSED is the one command that reads any. -/
theorem exec_ofCommand_take_two (c : Byte) (p : List Byte) (s : State) :
    exec (ofCommand c (p.take 2)) s = exec (ofCommand c p) s := by
  unfold ofCommand
  split
  case h_2 => exact handlePacket_take_two 0x02 p s
  all_goals rfl

/-- Two well-formed instructions with one Command byte whose payloads begin with the same two bytes have one effect. -/
theorem exec_eq_of_command_eq_of_take_two_eq {i j : Instr} (hi : i.WellFormed) (hj : j.WellFormed)
    (hc : i.command = j.command) (hp : i.payload.take 2 = j.payload.take 2) (s : State) : exec i s = exec j s := by
  calc exec i s = exec (ofCommand i.command i.payload) s := by rw [ofCommand_command i hi]
    _ = exec (ofCommand i.command (i.payload.take 2)) s := (exec_ofCommand_take_two _ _ s).symm
    _ = exec (ofCommand j.command (j.payload.take 2)) s := by rw [hc, hp]
    _ = exec (ofCommand j.command j.payload) s := exec_ofCommand_take_two _ _ s
    _ = exec j s := by rw [ofCommand_command j hj]

/-- Settles O20: the pins by their equations; the effect because the command map gives a well-formed instruction back and
`exec` of what it answers depends on the first two payload bytes only. -/
theorem pinsReadFromPayloadOrZero : Obligations.PinsReadFromPayloadOrZero := by
  refine ⟨⟨pin1_nil, pin2_nil⟩, fun a => ⟨pin1_cons a [], pin2_singleton a⟩,
    fun a b rest => ⟨pin1_cons a (b :: rest), pin2_cons_cons a b rest⟩, fun a b rest s => ?_,
    fun i j hc hi hj hp s => exec_eq_of_command_eq_of_take_two_eq hi hj hc hp s⟩
  exact (exec_ofCommand_take_two 0x02 (a :: b :: rest) s).symm

end Sys2Proof.Machine
end

