-- ==== Sys2Proof/Proofs/FrameOrder.lean ====
section
/-! PROOF. The frames of well-formed instructions on the RX stream (`20_memory.md` R57): what the parser makes of one frame,
of all of it but the Checksum byte, and of frames one behind another; then the order of the deliveries. -/

namespace Sys2Proof.Machine

/-- R70, R71: a frame is SOF, Length, and the body that Length announces; the body is never empty. -/
theorem encode_eq_candidate {i : Instr} (h : i.WellFormed) :
    ∃ len body, encode i = Config.sof :: len :: body ∧ body.length = len.toNat ∧ body ≠ [] := by
  refine ⟨_, _, frameBytes_eq i.command i.payload, ?_, by simp⟩
  rw [length_byte _ (payload_le i h)]
  simp

/-- R73, R76, R82: the tests on a candidate pass on a frame, and the packet is the instruction. -/
theorem itemOf_encode {i : Instr} (h : i.WellFormed) : itemOf (encode i) = .packet i := by
  have hp := payload_le i h
  have hl : ¬ BitVec.ofNat 8 (i.payload.length + 2) < 2 := by
    rw [BitVec.lt_def, length_byte _ hp]
    simp
  rw [itemOf, encode, frameBytes_eq, List.cons_append, decodeCandidate_frame _ _ _ _ _ hl]
  simp [ofCommand_command i h]

/-- R57, R101: a frame at the front is cut as its packet, whatever stands behind it. -/
theorem parse_encode_append {i : Instr} (h : i.WellFormed) (rest : List Byte) :
    parse (encode i ++ rest) = (.packet i :: (parse rest).1, (parse rest).2) := by
  obtain ⟨len, body, he, hl, -⟩ := encode_eq_candidate h
  have hi := itemOf_encode h
  rw [he] at hi ⊢
  rw [List.cons_append, List.cons_append, parse_candidate len body rest hl, hi]

/-- R57: frames one behind another are their packets in order, and nothing is left. -/
theorem parse_flatMap_encode {is : List Instr} (h : ∀ i ∈ is, i.WellFormed) :
    parse (is.flatMap encode) = (is.map .packet, []) := by
  induction is with
  | nil => rfl
  | cons i is ih =>
    rw [List.forall_mem_cons] at h
    rw [List.flatMap_cons, parse_encode_append h.1, ih h.2, List.map_cons]

/-- R24: a frame without its Checksum byte is a residue. -/
theorem rxbufOk_dropLast_encode {i : Instr} (h : i.WellFormed) : rxbufOk (encode i).dropLast = true := by
  obtain ⟨len, body, he, hl, hne⟩ := encode_eq_candidate h
  have hpos : 0 < body.length := List.length_pos_iff.mpr hne
  have hlen : 1 ≤ len := by bv_omega
  rw [he, List.dropLast_cons_of_ne_nil (by simp), List.dropLast_cons_of_ne_nil hne]
  simp only [rxbufOk, beq_self_eq_true, hlen, decide_true, Bool.true_and, decide_eq_true_eq, List.length_dropLast]
  omega

/-- R72: the Checksum byte completes the frame. -/
theorem dropLast_append_getLastD_encode (i : Instr) :
    (encode i).dropLast ++ [(encode i).getLastD 0] = encode i := by
  rw [encode, frameBytes, List.dropLast_concat, List.getLastD_concat]

theorem setRxbuf_eq_self {s : State} {buf : List Byte} (h : s.rxbuf = buf) : s.setRxbuf buf = s := by
  subst h
  rfl

theorem applyItems_rxbuf (its : List Item) (s : State) : (applyItems its s).rxbuf = s.rxbuf := by
  induction its generalizing s with
  | nil => rfl
  | cons i its ih => rw [applyItems_cons, ih, applyItem_rxbuf]

/-- R57: packets delivered one after another are the effects of their items. -/
theorem deliverAll_eq (is : List Instr) (s : State) : deliverAll is s = .next (applyItems (is.map .packet) s) := by
  induction is generalizing s with
  | nil => rfl
  | cons i is ih =>
    rw [deliverAll, deliver_eq]
    exact ih _

/-- R57, first half: a feed of frames is the deliveries in order. -/
theorem feed_flatMap_encode {is : List Instr} {s : State} (hs : s.rxbuf = []) (h : ∀ i ∈ is, i.WellFormed) :
    feed (is.flatMap encode) s = deliverAll is s := by
  rw [feed_eq, hs, List.nil_append, parse_flatMap_encode h, deliverAll_eq,
    setRxbuf_eq_self ((applyItems_rxbuf _ s).trans hs)]

/-- R57, R111: all of a frame but its Checksum byte only waits. -/
theorem feed_dropLast_encode {i : Instr} {s : State} (hs : s.rxbuf = []) (h : i.WellFormed) :
    feed (encode i).dropLast s = .next (s.setRxbuf (encode i).dropLast) := by
  rw [feed_eq, hs, List.nil_append, parse_ok _ (rxbufOk_dropLast_encode h), applyItems_nil]

/-- R57: the Checksum byte delivers the packet, with RXBUF already empty. -/
theorem feed_getLastD_encode {i : Instr} (s : State) (h : i.WellFormed) :
    feed [(encode i).getLastD 0] (s.setRxbuf (encode i).dropLast) = deliver i (s.setRxbuf []) := by
  have hp : parse (encode i) = ([.packet i], []) := by
    simpa using parse_encode_append h []
  rw [feed_eq, State.setRxbuf_rxbuf, dropLast_append_getLastD_encode, hp, applyItems_setRxbuf, setRxbuf_setRxbuf,
    ← applyItems_setRxbuf, deliver_eq]
  rfl

/-- Settles O49: the parser cuts one packet per frame, in order, and waits until the Checksum byte. -/
theorem framesDispatchedInOrder : Obligations.FramesDispatchedInOrder := by
  refine ⟨fun is s hs h => feed_flatMap_encode hs h, fun i s hs h => ⟨feed_dropLast_encode hs h, ?_⟩⟩
  have hf := feed_getLastD_encode s h
  rwa [setRxbuf_eq_self hs] at hf

end Sys2Proof.Machine
end

