-- ==== Sys2Proof/Proofs/FrameLaws.lean ====
section
/-! PROOF. The Length law and the checksum law (`30_encoding.md` R71, R72). A built frame is a `frameBytes` within the payload
bound; so is an accepted one, because the decoder accepts the encodings of well-formed instructions only. `frameBytes_shape`
has both laws for either. -/

namespace Sys2Proof.Machine

/-- R121: `build` answers within the payload bound only, and then the frame. -/
theorem build_eq_some {c : Byte} {p f : List Byte} (h : build c p = some f) : p.length ≤ 253 ∧ f = frameBytes c p := by
  have hp : p.length ≤ 253 := by
    by_contra hlong
    rw [build_tooLong c p (Nat.not_le.mp hlong)] at h
    cases h
  rw [build_fits c p hp] at h
  exact ⟨hp, (Option.some.inj h).symm⟩

/-- R101, converse of `decode_candidate`: what is accepted stands at the front as one whole candidate that passes its tests. -/
theorem decode_ok_split {bs rest : List Byte} {i : Instr} (h : decode bs = .ok (i, rest)) :
    ∃ len body, body.length = len.toNat ∧ bs = Config.sof :: len :: (body ++ rest) ∧
      decodeCandidate (Config.sof :: len :: body) = .ok i := by
  cases bs with
  | nil => cases h
  | cons b bs =>
    simp only [decode] at h
    split at h
    · cases h
    next hsof =>
    split at h
    · cases h
    next f after hcut =>
    split at h
    · cases h
    next j hok =>
    cases h
    obtain ⟨n, len, body, hn, hlen, rfl, hbs⟩ := scan_cut_split hcut
    have hb : b = Config.sof := by simpa using hsof
    cases n with
    | nil => exact ⟨len, body, hlen, hbs, hok⟩
    | cons a n =>
      have ha : b = a := (List.cons.inj hbs).1
      exact absurd (by simp [← ha, hb]) hn

/-- R107: a candidate that passes its tests has a Length of 2 or more. -/
theorem not_len_lt_two_of_decodeCandidate {s len : Byte} {body : List Byte} {i : Instr}
    (h : decodeCandidate (s :: len :: body) = .ok i) : ¬ len < 2 := by
  intro hl
  simp only [decodeCandidate, List.getD_cons_succ, List.getD_cons_zero, if_pos hl] at h
  split at h <;> cases h

/-- A candidate's body of two bytes or more is Command, payload and Checksum. -/
theorem exists_command_payload_checksum {body : List Byte} (h : 2 ≤ body.length) :
    ∃ c p ck, body = c :: (p ++ [ck]) := by
  match body, h with
  | c :: t, h =>
    have ht : t ≠ [] := by
      rintro rfl
      simp at h
    exact ⟨c, t.dropLast, t.getLast ht, by rw [List.dropLast_append_getLast ht]⟩

/-- R70 to R76: a whole candidate that passes its tests is the frame of a well-formed instruction. -/
theorem wellFormed_and_eq_encode_of_decodeCandidate {len : Byte} {body : List Byte} {i : Instr}
    (hlen : body.length = len.toNat) (h : decodeCandidate (Config.sof :: len :: body) = .ok i) :
    i.WellFormed ∧ Config.sof :: len :: body = encode i := by
  have hl := not_len_lt_two_of_decodeCandidate h
  obtain ⟨c, p, ck, rfl⟩ := exists_command_payload_checksum (body := body) (by bv_omega)
  rw [List.length_cons, List.length_append, List.length_singleton] at hlen
  have hp : p.length ≤ 253 := by bv_omega
  have hL : len = BitVec.ofNat 8 (p.length + 2) := by
    rw [← BitVec.toNat_inj, length_byte p hp, ← hlen]
  rw [decodeCandidate_frame _ _ _ _ _ hl] at h
  split at h
  · cases h
  next hck =>
  cases h
  refine ⟨wellFormed_ofCommand c p (decide_eq_true hp), ?_⟩
  rw [encode, command_ofCommand, payload_ofCommand, frameBytes_eq, ← hL, ← not_not.mp hck, List.cons_append]

/-- R70 to R76: the decoder accepts the encodings of well-formed instructions only, and consumes exactly the frame. -/
theorem wellFormed_and_eq_encode_append_of_decode {bs rest : List Byte} {i : Instr} (h : decode bs = .ok (i, rest)) :
    i.WellFormed ∧ bs = encode i ++ rest := by
  obtain ⟨len, body, hlen, rfl, hok⟩ := decode_ok_split h
  obtain ⟨hwf, he⟩ := wellFormed_and_eq_encode_of_decodeCandidate hlen hok
  exact ⟨hwf, by rw [← he, List.cons_append, List.cons_append]⟩

/-- R71: reading Length at the front of a frame and taking `2 + Length` bytes gives the frame, whatever follows it. -/
theorem take_length_encode_append {i : Instr} (h : i.WellFormed) (rest : List Byte) :
    (encode i ++ rest).take (2 + ((encode i ++ rest).getD 1 0).toNat) = encode i := by
  obtain ⟨hL, hsize, -⟩ := frameBytes_shape i.command i.payload (payload_le i h)
  have hfront : (encode i ++ rest).getD 1 0 = (encode i).getD 1 0 := rfl
  refine List.take_left' ?_
  rw [hfront, encode, hL, hsize]
  omega

/-- Settles O5: a frame that is built or accepted is `frameBytes` of a payload within the bound, and that has both laws. -/
theorem builtFramesObeyLengthAndChecksumLaws : Obligations.BuiltFramesObeyLengthAndChecksumLaws := by
  refine ⟨fun c p f hf => ?_, fun bs i rest hd => ?_, by decide, by decide⟩
  · obtain ⟨hp, rfl⟩ := build_eq_some hf
    obtain ⟨hL, hsize, hck⟩ := frameBytes_shape c p hp
    refine ⟨?_, ?_, ?_, ?_, ?_, hck⟩ <;> omega
  · obtain ⟨hwf, rfl⟩ := wellFormed_and_eq_encode_append_of_decode hd
    obtain ⟨hL, hsize, hck⟩ := frameBytes_shape i.command i.payload (payload_le i hwf)
    rw [take_length_encode_append hwf]
    refine ⟨?_, ?_, ?_, hck⟩ <;> rw [encode] <;> omega

end Sys2Proof.Machine
end

