-- ==== Sys2Proof/Proofs/Framing.lean ====
section
/-! PROOF. What the Framer makes of the bytes it is given (`40_framer.md`): noise, a byte that only extends a candidate, a byte
that completes one, and a whole frame. Then what ticks leave alone, and that no field but RXBUF decides which packets are
made. -/

namespace Sys2Proof.Machine

/-! ## What a feed does -/

/-- R102: in HUNT, bytes free of SOF leave the state as it is. -/
theorem feed_noise {s : State} {bs : List Byte} (hs : s.rxbuf = []) (hn : Config.sof ∉ bs) : feed bs s = .next s := by
  have hp : parse bs = ([], []) := by simpa using parse_noise bs [] hn
  rw [feed_eq, hs, List.nil_append, hp, applyItems_nil, setRxbuf_eq_self hs]

/-- R111: bytes after which RXBUF is still a residue are only collected. -/
theorem feed_residue {s : State} {bs : List Byte} (h : rxbufOk (s.rxbuf ++ bs) = true) :
    feed bs s = .next (s.setRxbuf (s.rxbuf ++ bs)) := by
  rw [feed_eq, parse_ok _ h, applyItems_nil]

/-- R101, R108: the byte that completes a candidate makes its one item; the bytes after it are read from HUNT. -/
theorem feed_cons_candidate {s : State} {b len : Byte} {body : List Byte}
    (h : s.rxbuf ++ [b] = Config.sof :: len :: body) (hl : body.length = len.toNat) (rest : List Byte) :
    feed (b :: rest) s = feed rest ((applyItem s (itemOf (Config.sof :: len :: body))).setRxbuf []) := by
  have hb : s.rxbuf ++ b :: rest = Config.sof :: len :: (body ++ rest) := by
    rw [List.append_cons, h, List.cons_append, List.cons_append]
  rw [feed_eq, feed_eq, hb, parse_candidate len body rest hl, applyItems_cons, State.setRxbuf_rxbuf, List.nil_append,
    applyItems_setRxbuf, setRxbuf_setRxbuf]

/-- R105: the item of a candidate whose last byte differs from the sum of the bytes before it. -/
theorem itemOf_checksum_mismatch {h : List Byte} {ck : Byte} (hck : ck ≠ sum8 h) :
    itemOf (h ++ [ck]) = .error .checksum := by
  rw [itemOf, decodeCandidate_append, if_pos hck]

/-- R115: from HUNT a frame makes exactly its packet and leaves HUNT. -/
theorem feed_encode {i : Instr} {s : State} (hs : s.rxbuf = []) (h : i.WellFormed) :
    feed (encode i) s = deliver i s := by
  have hf := feed_flatMap_encode (is := [i]) hs (by simpa using h)
  rw [List.flatMap_singleton, deliverAll_eq] at hf
  exact hf.trans (deliver_eq i s).symm

/-- R106: the byte that completes the frame of an instruction delivers it, with RXBUF already empty. -/
theorem feed_completes_encode {i : Instr} {s : State} {b : Byte} (h : i.WellFormed) (hb : s.rxbuf ++ [b] = encode i) :
    feed [b] s = deliver i (s.setRxbuf []) := by
  have hbuf : s.rxbuf = (encode i).dropLast := by rw [← hb, List.dropLast_concat]
  have hlast : b = (encode i).getLastD 0 := by rw [← hb, List.getLastD_concat]
  have hf := feed_getLastD_encode s h
  rwa [← hlast, setRxbuf_eq_self hbuf] at hf

/-! ## The fields of a frame -/

/-- R76: frame byte `3 + k` is payload byte `k`. -/
theorem encode_getD_payload (i : Instr) {k : Nat} (hk : k < i.payload.length) :
    (encode i).getD (3 + k) 0 = i.payload.getD k 0 := by
  rw [encode, frameBytes_eq, Nat.add_comm 3 k, List.cons_append]
  exact List.getD_append _ _ _ _ hk

/-! ## What a tick leaves alone -/

/-- R111, R137: a tick answers a state, and writes neither RXBUF nor the waiting events, the observations or the errors. -/
theorem tick_frame (now : Nat) (s : State) :
    ∃ t, tick now s = .next t ∧ t.rxbuf = s.rxbuf ∧ t.input = s.input ∧ t.obs = s.obs ∧ t.errs = s.errs := by
  rcases tick_cases now s with ⟨h, -⟩ | ⟨i, -, -, -, h⟩
  · exact ⟨s, h, rfl, rfl, rfl, rfl⟩
  · exact ⟨_, h, rfl, rfl, rfl, rfl⟩

/-- R8: a run goes on from what its first step answers. -/
theorem run_succ {n : Nat} {s t : State} (h : step s = .next t) : run (n + 1) s = run n t := by
  rw [run, h]

/-- R111: nor does any number of ticks. -/
theorem run_ticks_frame {ts : List Nat} {s : State} {es : List Event} (hs : s.input = ts.map Event.tick ++ es) :
    ∃ t, run ts.length s = .next t ∧ t.rxbuf = s.rxbuf ∧ t.input = es ∧ t.obs = s.obs ∧ t.errs = s.errs := by
  induction ts generalizing s with
  | nil => exact ⟨s, rfl, rfl, hs, rfl, rfl⟩
  | cons now ts ih =>
    obtain ⟨u, hu, hrx, hin, hobs, herrs⟩ := tick_frame now { s with input := ts.map Event.tick ++ es }
    obtain ⟨t, ht, hrx', hin', hobs', herrs'⟩ := ih hin
    have hstep : step s = .next u := (step_tick hs).trans hu
    exact ⟨t, (run_succ hstep).trans ht, hrx'.trans hrx, hin', hobs'.trans hobs, herrs'.trans herrs⟩

/-! ## The obligations -/

/-- Settles O30: by `feed_eq` a feed appends the packets of `parse`, which reads RXBUF and the bytes alone; a tick has its frame
lemma; the frame of any Command byte is the encoding of the instruction that the byte selects. -/
theorem framerIndependentOfModeAndTicks : Obligations.FramerIndependentOfModeAndTicks := by
  refine ⟨fun bs s s' h => ?_, fun now s => ?_, fun c p s hs hp => ?_⟩
  · exact ⟨_, _, packetsOf (parse (s.rxbuf ++ bs)).1, feed_eq bs s, feed_eq bs s', by rw [h]; rfl,
      applyItems_obs _ s, by rw [h]; exact applyItems_obs _ s'⟩
  · obtain ⟨t, ht, hrx, -, hobs, -⟩ := tick_frame now s
    exact ⟨t, ht, hrx, hobs⟩
  · have hwf : (ofCommand c p).WellFormed := wellFormed_ofCommand c p (decide_eq_true hp)
    have he : encode (ofCommand c p) = frameBytes c p := by rw [encode, command_ofCommand, payload_ofCommand]
    rw [← he, feed_encode hs hwf, deliver_eq]
    refine ⟨_, rfl, (applyItem_rxbuf s _).trans hs, ?_⟩
    rw [applyItem, applyInstr_obs, State.pktObs_obs, command_ofCommand, payload_ofCommand]

/-- Settles O10: what decodes with nothing left is the encoding of the instruction, so the byte delivers it, and the frame's
fields are those of an encoding. -/
theorem stepRunsDecodedInstruction : Obligations.StepRunsDecodedInstruction := by
  intro s b es i h
  obtain ⟨hwf, hb⟩ := wellFormed_and_eq_encode_append_of_decode h
  rw [List.append_nil] at hb
  obtain ⟨hL, hsize, -⟩ := frameBytes_shape i.command i.payload (payload_le i hwf)
  refine ⟨?_, ?_⟩
  · exact (step_rxByte rfl).trans (feed_completes_encode (s := { s with input := es }) hwf hb)
  · rw [hb]
    refine ⟨rfl, ?_, ?_, fun k hk => (encode_getD_payload i hk).symm⟩ <;> rw [encode] <;> omega

/-- Settles O26: noise in HUNT, one byte as an event and any number of bytes as a feed. -/
theorem noiseDiscardedInHunt : Obligations.NoiseDiscardedInHunt := by
  refine ⟨fun s b es hs hb => ?_, fun s bs hs hn => feed_noise hs hn⟩
  exact (step_rxByte rfl).trans (feed_noise hs (List.mem_singleton.not.mpr (Ne.symm hb)))

/-- Settles O27: the one item of the candidate is the checksum error, which is raised and changes nothing else. -/
theorem checksumMismatchDropsCandidate : Obligations.ChecksumMismatchDropsCandidate := by
  intro s len b body es h hl hb
  have hitem : itemOf (Config.sof :: len :: body) = .error .checksum := by
    have hm := itemOf_checksum_mismatch hb
    rwa [h] at hm
  refine ⟨?_, fun rest => ?_⟩
  · rw [step_rxByte rfl, feed_candidate (s := { s with input := es }) h hl, hitem]
    rfl
  · rw [feed_cons_candidate h hl, hitem]
    rfl

/-- Settles O29: a byte that leaves a residue is collected, and ticks have their frame lemma. -/
theorem partialCandidateWaits : Obligations.PartialCandidateWaits := by
  refine ⟨fun s b es h => ?_, fun ts s es => run_ticks_frame rfl⟩
  exact (step_rxByte rfl).trans (feed_residue (s := { s with input := es }) h)

end Sys2Proof.Machine
end

