-- ==== Sys2Proof/Proofs/BuiltFrame.lean ====
section
/-! PROOF. The wire frame that `build` answers (`41_codec_tx.md` R120): within the payload bound it is `frameBytes`, whose
fields and size are already stated. -/

namespace Sys2Proof.Machine

/-- Settles O6: within the bound `build` answers `frameBytes`, field by field as the rule gives it and four bytes longer than
the payload; the two examples are evaluated. -/
theorem buildAnswersTheWireFrame : Obligations.BuildAnswersTheWireFrame := by
  refine ⟨fun c p hp => ⟨?_, fun f hf => ?_⟩, by decide, by decide⟩
  · exact (build_fits c p hp).trans (congrArg some (frameBytes_eq c p))
  · obtain ⟨-, rfl⟩ := build_eq_some hf
    obtain ⟨-, hsize, -⟩ := frameBytes_shape c p hp
    exact hsize

end Sys2Proof.Machine
end

