-- ==== Sys2Proof/Proofs/Dispatch.lean ====
section
/-! PROOF. Who is called with a packet (`42_dispatch.md`): the active mode for a command that is not global (R133), its own
handler whatever the mode for a global one (R132); and what writes MODE (R137). `exec` and `feed` are given by `effMode`,
`effTx` and `effErrs`, so each statement rests on how these three read MODE. -/

namespace Sys2Proof.Machine

/-! ## Classes of Command bytes -/

/-- R82: an `unknown` that a frame can carry has an unnamed Command byte. -/
theorem unnamedCommand_of_wellFormed {c : Byte} {p : List Byte} (h : (Instr.unknown c p).WellFormed) :
    unnamedCommand c = true :=
  (Bool.and_eq_true_iff.mp h).1

theorem ne_btnPressed_of_unnamedCommand {c : Byte} (h : unnamedCommand c = true) : c ≠ 0x02 := by
  rintro rfl
  exact absurd h (by decide)

/-- R81: BTN_PRESSED is not global. -/
theorem ne_btnPressed_of_globalByte {c : Byte} (h : globalByte c = true) : c ≠ 0x02 := by
  rintro rfl
  exact absurd h (by decide)

theorem modeSwitchByte_of_unnamedCommand {c : Byte} (h : unnamedCommand c = true) : modeSwitchByte c = false := by
  simp only [unnamedCommand, Bool.or_eq_true, beq_iff_eq, decide_eq_true_eq] at h
  simp only [modeSwitchByte, Bool.and_eq_false_iff, decide_eq_false_iff_not]
  bv_omega

/-! ## How an instruction's effect reads MODE -/

/-- R137: what is not a mode switch keeps MODE and its registers. -/
theorem effMode_of_not_modeSwitch {i : Instr} (h : modeSwitchByte i.command = false) (m : Mode) : effMode i m = m := by
  cases i with
  | modeCheckKeyboard | modeRun | modeConfigure | modeDiodeConfig | modeDiodeConfigDel =>
    simp [Instr.command, modeSwitchByte] at h
  | _ => rfl

/-- R150: a mode switch keeps nothing of the mode it replaces. -/
theorem effMode_mode_irrelevant {i : Instr} (hwf : i.WellFormed) (h : modeSwitchByte i.command = true) (m m' : Mode) :
    effMode i m = effMode i m' := by
  cases i with
  | modeCheckKeyboard | modeRun | modeConfigure | modeDiodeConfig | modeDiodeConfigDel => rfl
  | unknown c p =>
    have hc := modeSwitchByte_of_unnamedCommand (unnamedCommand_of_wellFormed hwf)
    exact absurd (hc.symm.trans h) (by decide)
  | _ => simp [Instr.command, modeSwitchByte] at h

theorem tableMode_of_not_modeSwitch {c : Byte} (h : modeSwitchByte c = false) (m : Mode) : tableMode c m = m := by
  have hc : c ≠ 0x04 ∧ c ≠ 0x05 ∧ c ≠ 0x06 ∧ c ≠ 0x07 ∧ c ≠ 0x08 := by
    refine ⟨?_, ?_, ?_, ?_, ?_⟩ <;> (rintro rfl; exact absurd h (by decide))
  obtain ⟨h4, h5, h6, h7, h8⟩ := hc
  rw [tableMode, if_neg h4, if_neg h5, if_neg h6, if_neg h7, if_neg h8]

/-- R134: the table's MODE by Command byte is MODE after the instruction. -/
theorem effMode_eq_tableMode {i : Instr} (hwf : i.WellFormed) (m : Mode) : effMode i m = tableMode i.command m := by
  cases i with
  | unknown c p =>
    have hc := modeSwitchByte_of_unnamedCommand (unnamedCommand_of_wellFormed hwf)
    exact (tableMode_of_not_modeSwitch hc m).symm
  | _ => rfl

/-- R134: BTN_PRESSED is the one command whose frames depend on MODE. -/
theorem effTx_mode_irrelevant {i : Instr} (h : i.command ≠ 0x02) (m m' : Mode) : effTx i m = effTx i m' := by
  cases i with
  | btnPressed p => exact absurd rfl h
  | _ => rfl

/-- R135, R183: BTN_PRESSED is the one command whose errors depend on MODE; no other raises any. -/
theorem effErrs_mode_irrelevant {i : Instr} (h : i.command ≠ 0x02) (m m' : Mode) : effErrs i m = effErrs i m' := by
  cases i with
  | btnPressed p => exact absurd rfl h
  | _ => rfl

/-! ## The active mode -/

theorem handlePacket_of_ne_btnPressed {c : Byte} (h : c ≠ 0x02) (p : List Byte) (s : State) :
    handlePacket c p s = .next s := by
  rw [handlePacket_eq, if_neg fun ⟨hc, _⟩ => h hc]

/-- R133: a command that is not global is the active mode's. -/
theorem exec_eq_handlePacket {i : Instr} (hwf : i.WellFormed) (h : globalByte i.command = false) (s : State) :
    exec i s = handlePacket i.command i.payload s := by
  cases i with
  | btnPressed | btnReleased | statusUpdate => rfl
  | unknown c p =>
    have hc := ne_btnPressed_of_unnamedCommand (unnamedCommand_of_wellFormed hwf)
    exact (handlePacket_of_ne_btnPressed hc p s).symm
  | _ => simp [Instr.command, globalByte] at h

/-- Settles O21: the forwarding by the class of the command; the handler because RUN and CHECK_KEYBOARD are the modes that
answer a press and the other three are not. -/
theorem perModeCommandsForwarded : Obligations.PerModeCommandsForwarded := by
  refine ⟨fun i s hwf h => exec_eq_handlePacket hwf h s, fun c p s hm => ?_, fun c p s hm => ?_⟩
  · have hans : pressAnswered s.mode = true := by
      rcases hm with hm | ⟨i, n, hm⟩ <;> rw [hm] <;> rfl
    exact ⟨fun hc => by rw [handlePacket_eq, if_pos ⟨hc, hans⟩], fun hc => handlePacket_of_ne_btnPressed hc p s⟩
  · have hans : pressAnswered s.mode ≠ true := by
      rcases hm with hm | hm | hm <;> rw [hm] <;> decide
    rw [handlePacket_eq, if_neg fun ⟨_, h⟩ => hans h]

/-! ## Global commands -/

/-- R57, R101: two frames in one feed from HUNT are their two packets, one after the other. -/
theorem feed_encode_append_encode {i j : Instr} {s : State} (hs : s.rxbuf = []) (hi : i.WellFormed) (hj : j.WellFormed) :
    feed (encode i ++ encode j) s = .next (applyItem (applyItem s (.packet i)) (.packet j)) := by
  have hf := feed_flatMap_encode (is := [i, j]) hs (by simpa using ⟨hi, hj⟩)
  rw [deliverAll_eq] at hf
  simpa using hf

/-- R132: an instruction that answers with the frame `f` and keeps MODE, whatever MODE is, does so right behind a mode
switch too. -/
theorem feed_modeSwitch_append_acknowledged {sw i : Instr} {f : List Byte} {s : State} (hs : s.rxbuf = [])
    (hsw : sw.WellFormed) (hi : i.WellFormed) (htx : ∀ m, effTx i m = [f]) (hmode : ∀ m, effMode i m = m) :
    ∃ t fs, feed (encode sw ++ encode i) s = .next t ∧ t.tx = s.tx ++ fs ++ [f] ∧
      t.mode = tableMode sw.command s.mode := by
  refine ⟨_, effTx sw s.mode, feed_encode_append_encode hs hsw hi, ?_, ?_⟩
  · simp [applyItem, htx]
  · simp [applyItem, hmode, effMode_eq_tableMode hsw]

/-- Settles O24: only BTN_PRESSED has frames or errors that depend on MODE, a mode switch overwrites it and the other global
commands keep it; the acknowledgement behind a switch is the parser's second packet. -/
theorem globalCommandsModeInvariant : Obligations.GlobalCommandsModeInvariant := by
  refine ⟨fun i s m hg hwf => ?_, fun sw p s hs hsw _ hp => ⟨?_, ?_⟩⟩
  · have hne := ne_btnPressed_of_globalByte hg
    refine ⟨_, _, exec_eq i s, exec_eq i _, rfl, rfl, rfl, ?_, rfl, ?_, ?_⟩
    · exact congrArg (s.tx ++ ·) (effTx_mode_irrelevant hne m s.mode)
    · exact congrArg (s.errs ++ ·) (effErrs_mode_irrelevant hne m s.mode)
    · split
      next h => exact effMode_mode_irrelevant hwf h m s.mode
      next h =>
        rw [Bool.not_eq_true] at h
        exact ⟨effMode_of_not_modeSwitch h s.mode, effMode_of_not_modeSwitch h m⟩
  · exact feed_modeSwitch_append_acknowledged hs hsw (decide_eq_true hp) (fun _ => rfl) (fun _ => rfl)
  · exact feed_modeSwitch_append_acknowledged hs hsw (decide_eq_true hp) (fun _ => rfl) (fun _ => rfl)

/-! ## What writes MODE -/

/-- R137, R172: a tick moves the CHECK_KEYBOARD registers only, never from one mode to another. -/
theorem tick_mode_code {now : Nat} {s t : State} (h : tick now s = .next t) : t.mode.code = s.mode.code := by
  rcases tick_cases now s with ⟨hk, -⟩ | ⟨i, n, hm, -, hf⟩
  · cases hk.symm.trans h
    rfl
  · cases hf.symm.trans h
    rw [hm]
    rfl

/-- R137: a candidate that makes no mode-switch packet keeps MODE. -/
theorem applyItem_mode {it : Item} (h : ∀ p ∈ packetsOf [it], modeSwitchByte p.command = false) (s : State) :
    (applyItem s it).mode = s.mode := by
  cases it with
  | error c => rfl
  | packet i => exact effMode_of_not_modeSwitch (h ⟨i.command, i.payload⟩ (List.mem_singleton_self _)) s.mode

theorem packetsOf_cons (it : Item) (its : List Item) : packetsOf (it :: its) = packetsOf [it] ++ packetsOf its :=
  List.filterMap_append (l := [it]) (l' := its)

/-- R137: so does any number of them. -/
theorem applyItems_mode {its : List Item} (h : ∀ p ∈ packetsOf its, modeSwitchByte p.command = false) (s : State) :
    (applyItems its s).mode = s.mode := by
  induction its generalizing s with
  | nil => rfl
  | cons it its ih =>
    rw [packetsOf_cons, List.forall_mem_append] at h
    rw [applyItems_cons, ih h.2, applyItem_mode h.1]

/-- Settles O46: a tick by its frame lemma and its mode number; a byte because a feed observes the packets that `parse` finds
and writes MODE by a mode switch among them only; without an event nothing is done. -/
theorem onlyReceptionDispatches : Obligations.OnlyReceptionDispatches := by
  refine ⟨fun s t now es hin hstep => ?_, fun s t b es hin hstep => ?_, fun s t hin hstep => ?_⟩
  · have htick := (step_tick hin).symm.trans hstep
    obtain ⟨u, hu, hrx, -, hobs, -⟩ := tick_frame now { s with input := es }
    cases hu.symm.trans htick
    exact ⟨hobs, tick_mode_code (s := { s with input := es }) htick, hrx⟩
  · have hfeed := (feed_eq [b] { s with input := es }).symm.trans ((step_rxByte hin).symm.trans hstep)
    cases hfeed
    exact ⟨packetsOf (parse (s.rxbuf ++ [b])).1, applyItems_obs _ _, fun h => applyItems_mode h _⟩
  · cases (step_idle hin).symm.trans hstep
    rfl

end Sys2Proof.Machine
end

