-- ==== Sys2Proof/Proofs/GlobalCommands.lean ====
section
/-! PROOF. The four global commands that switch no mode (`43_global_commands.md`). They keep MODE and raise nothing, so all
that `exec` leaves of them is their frames: the acknowledgement for two (R140, R141), none for the other two (R142, R143). -/

namespace Sys2Proof.Machine

/-- R122: the frame without payload is the acknowledgement in closed form. -/
theorem frameBytes_nil (c : Byte) : frameBytes c [] = ackFrame c :=
  Option.some.inj ((build_fits c [] (Nat.zero_le 253)).symm.trans (buildNoPayload_eq c))

theorem encode_eq_ackFrame {i : Instr} (h : i.payload = []) : encode i = ackFrame i.command := by
  rw [encode, h, frameBytes_nil]

section
variable {i : Instr} {s : State} (hmode : effMode i s.mode = s.mode) (herrs : effErrs i s.mode = [])
include hmode herrs

/-- R134: an instruction that keeps MODE and raises nothing appends its frames to TX and does nothing else. -/
theorem exec_eq_append_effTx : exec i s = .next { s with tx := s.tx ++ effTx i s.mode } := by
  rw [exec_eq, applyInstr, hmode, herrs, List.append_nil]

/-- R134: one that emits no frame either answers the same state. -/
theorem exec_eq_self (htx : effTx i s.mode = []) : exec i s = .next s := by
  rw [exec_eq_append_effTx hmode herrs, htx, List.append_nil]

/-- R106: delivered, it leaves the packet observation only. -/
theorem deliver_eq_pktObs (htx : effTx i s.mode = []) : deliver i s = .next (s.pktObs i.command i.payload) :=
  exec_eq_self (s := s.pktObs i.command i.payload) hmode herrs htx

end

/-- Settles O11: both commands keep MODE, raise nothing and have the acknowledgement of their Command byte as their frame,
which is also the encoding without payload. -/
theorem echoAndDiodeClearAcknowledge : Obligations.EchoAndDiodeClearAcknowledge :=
  ⟨fun _ _ => exec_eq_append_effTx rfl rfl, fun _ _ => exec_eq_append_effTx rfl rfl,
    encode_eq_ackFrame rfl, encode_eq_ackFrame rfl⟩

/-- Settles O12: both commands keep MODE, raise nothing and emit nothing. -/
theorem diodeCommandsLeaveOnlyTheObservation : Obligations.DiodeCommandsLeaveOnlyTheObservation :=
  ⟨fun _ _ => ⟨exec_eq_self rfl rfl rfl, deliver_eq_pktObs rfl rfl rfl⟩,
    fun _ _ => ⟨exec_eq_self rfl rfl rfl, deliver_eq_pktObs rfl rfl rfl⟩,
    encode_eq_ackFrame rfl, encode_eq_ackFrame rfl⟩

end Sys2Proof.Machine
end

