-- ==== Sys2Proof/Proofs/ModeSwitch.lean ====
section
/-! PROOF. The mode-switch commands without an entry hook (`44_mode_switch_commands.md`). They raise nothing, so all that
`exec` leaves of them is MODE and their frames: none for RUN and CONFIGURE (R152, R153), the acknowledgement for the two diode
configuration modes (R154, R155). Then what a mode does with the ticks and the commands that it ignores. -/

namespace Sys2Proof.Machine

section
variable {i : Instr} {s : State} (herrs : effErrs i s.mode = [])
include herrs

/-- R134: an instruction that raises nothing writes MODE, appends its frames to TX and does nothing else. -/
theorem exec_eq_mode_append_effTx :
    exec i s = .next { s with mode := effMode i s.mode, tx := s.tx ++ effTx i s.mode } := by
  rw [exec_eq, applyInstr, herrs, List.append_nil]

/-- R134: one that emits no frame either writes MODE only. -/
theorem exec_eq_setMode (htx : effTx i s.mode = []) : exec i s = .next (s.setMode (effMode i s.mode)) := by
  rw [exec_eq_mode_append_effTx herrs, htx, List.append_nil, State.setMode]

end

/-- R176: outside CHECK_KEYBOARD a tick does nothing. -/
theorem tick_of_ne_checkKeyboard {s : State} (h : ∀ i n, s.mode ≠ .checkKeyboard i n) (now : Nat) :
    tick now s = .next s := by
  rcases tick_cases now s with ⟨hk, -⟩ | ⟨i, n, hm, -, -⟩
  · exact hk
  · exact absurd hm (h i n)

/-- R161, R133: a mode that answers no press ignores every command that is not global. -/
theorem exec_of_not_pressAnswered {i : Instr} {s : State} (hwf : i.WellFormed) (hg : globalByte i.command = false)
    (hm : pressAnswered s.mode = false) : exec i s = .next s := by
  have hne : ¬ pressAnswered s.mode = true := by rw [hm]; decide
  rw [exec_eq_handlePacket hwf hg, handlePacket_eq, if_neg fun ⟨_, hans⟩ => hne hans]

/-- R152. -/
theorem exec_modeRun (p : List Byte) (s : State) : exec (.modeRun p) s = .next (s.setMode .run) :=
  exec_eq_setMode rfl rfl

/-- R153. -/
theorem exec_modeConfigure (p : List Byte) (s : State) : exec (.modeConfigure p) s = .next (s.setMode .configure) :=
  exec_eq_setMode rfl rfl

/-- Settles O13: both commands raise and emit nothing, so they only write MODE; neither mode they lead to is CHECK_KEYBOARD,
so ticks do nothing, and CONFIGURE answers no press. -/
theorem runAndConfigureSwitchSilently : Obligations.RunAndConfigureSwitchSilently := by
  refine ⟨exec_modeRun, exec_modeConfigure, encode_eq_ackFrame rfl, encode_eq_ackFrame rfl, rfl,
    fun p s t now h => ?_, fun p s t i h hwf hg => ?_⟩
  · rcases h with h | h
    · cases (exec_modeRun p s).symm.trans h
      exact tick_of_ne_checkKeyboard (by simp) now
    · cases (exec_modeConfigure p s).symm.trans h
      exact tick_of_ne_checkKeyboard (by simp) now
  · cases (exec_modeConfigure p s).symm.trans h
    exact exec_of_not_pressAnswered hwf hg rfl

/-- Settles O14: both commands raise nothing and have the acknowledgement of their Command byte as their frame, which is also
the encoding without payload. -/
theorem diodeConfigSwitchesAcknowledge : Obligations.DiodeConfigSwitchesAcknowledge :=
  ⟨fun _ _ => exec_eq_mode_append_effTx rfl, fun _ _ => exec_eq_mode_append_effTx rfl,
    encode_eq_ackFrame rfl, encode_eq_ackFrame rfl⟩

end Sys2Proof.Machine
end

