-- ==== Sys2Proof/Proofs/ButtonCommands.lean ====
section
/-! PROOF. The button commands and the unknown ones (`45_button_and_other_commands.md`). BTN_PRESSED is the active mode's, so
the two modes that answer it run the press rule on the pins (R160) and the other three ignore it (R161). BTN_RELEASED and the
unknown commands have no effect in any mode (R162, R165); that a frame decodes to an unknown command is the decoder's round
trip on the encoding of a well-formed instruction. -/

namespace Sys2Proof.Machine

/-! ## The press rule in numbers -/

/-- R163: an unsigned byte in 1 to 15. -/
theorem pinInRange_iff (p : Byte) : pinInRange p = true ↔ 1 ≤ p.toNat ∧ p.toNat ≤ 15 := by
  rw [pinInRange, Bool.and_eq_true, decide_eq_true_iff, decide_eq_true_iff]
  exact Iff.rfl

/-- R163: both pins. -/
theorem pinsInRange_iff (p1 p2 : Byte) :
    pinsInRange p1 p2 = true ↔ 1 ≤ p1.toNat ∧ p1.toNat ≤ 15 ∧ 1 ≤ p2.toNat ∧ p2.toNat ≤ 15 := by
  rw [pinsInRange, Bool.and_eq_true, pinInRange_iff, pinInRange_iff, and_assoc]

/-- R160, R183: in RUN and CHECK_KEYBOARD BTN_PRESSED answers pins in range with the press status frame and raises the semantic
error otherwise. -/
theorem exec_btnPressed_of_answered {s : State} (hm : s.mode = .run ∨ ∃ i n, s.mode = .checkKeyboard i n) (p : List Byte) :
    exec (.btnPressed p) s =
      if pinsInRange (pin1 p) (pin2 p) then .next (s.txEmit (pressFrame (pin1 p) (pin2 p)))
      else .next (s.raise (.semantic (pin1 p) (pin2 p))) := by
  obtain ⟨-, hanswered, -⟩ := perModeCommandsForwarded
  obtain ⟨hpress, -⟩ := hanswered 0x02 p s hm
  exact (hpress rfl).trans (pressResponse_eq p s)

/-! ## Frames on the wire -/

/-- R160, R162: the canonical frame of a command with two pins, its checksum in closed form. -/
theorem frameBytes_two_pins (c p1 p2 : Byte) :
    frameBytes c [p1, p2] = [0xAA, 0x04, c, p1, p2, 0xAE + c + p1 + p2] := by
  have hck : (0xAA : Byte) + (0x04 + (c + (p1 + (p2 + 0)))) = 0xAE + c + p1 + p2 := by bv_omega
  rw [← hck]
  rfl

theorem decodeCandidate_of_itemOf_packet {f : List Byte} {i : Instr} (h : itemOf f = .packet i) :
    decodeCandidate f = .ok i := by
  unfold itemOf at h
  split at h
  · cases h
  next j hj =>
    cases h
    exact hj

/-- R88, R115: a frame at the front decodes to its instruction, and the bytes behind it are left. -/
theorem decode_encode_append {i : Instr} (h : i.WellFormed) (rest : List Byte) :
    decode (encode i ++ rest) = .ok (i, rest) := by
  obtain ⟨len, body, he, hl, -⟩ := encode_eq_candidate h
  have hok := decodeCandidate_of_itemOf_packet (itemOf_encode h)
  rw [he] at hok ⊢
  rw [List.cons_append, List.cons_append, decode_candidate len body rest hl, hok]

/-- R82: an unnamed Command byte and a payload that fits are a well-formed unknown command. -/
theorem wellFormed_unknown {c : Byte} {p : List Byte} (hc : c = 0x00 ∨ 0x0D ≤ c) (hp : p.length ≤ 253) :
    (Instr.unknown c p).WellFormed := by
  have hun : unnamedCommand c = true := by
    rwa [unnamedCommand, Bool.or_eq_true, beq_iff_eq, decide_eq_true_iff]
  exact Bool.and_eq_true_iff.mpr ⟨hun, decide_eq_true hp⟩

/-! ## The obligations -/

/-- Settles O16: BTN_PRESSED in the two modes is the press rule, whose range test is the one in numbers; the frame by its
closed form; the example is the press rule at pins 3 and 7. -/
theorem pressAnsweredInRunAndCheckKeyboard : Obligations.PressAnsweredInRunAndCheckKeyboard := by
  refine ⟨fun p s hm => ?_, frameBytes_two_pins 0x02, fun s hm => exec_btnPressed_of_answered (.inl hm) [3, 7]⟩
  rw [exec_btnPressed_of_answered hm, ← pinsInRange_iff]
  exact ⟨fun h => if_pos h, fun h => if_neg h⟩

/-- Settles O17: the other three modes ignore every packet that reaches them, and BTN_PRESSED is one. -/
theorem pressIgnoredInOtherModes : Obligations.PressIgnoredInOtherModes := by
  obtain ⟨-, -, hignored⟩ := perModeCommandsForwarded
  exact fun p s hm => hignored 0x02 p s hm

/-- Settles O18: both commands keep MODE, raise nothing and emit nothing; the frame is the encoding of a well-formed unknown
command, which decodes to it. -/
theorem releaseAndUnknownIgnored : Obligations.ReleaseAndUnknownIgnored := by
  refine ⟨fun _ _ => exec_eq_self rfl rfl rfl,
    fun _ _ _ => ⟨exec_eq_self rfl rfl rfl, deliver_eq_pktObs rfl rfl rfl⟩,
    frameBytes_two_pins 0x03, fun c p hp hc => ?_⟩
  have hd := decode_encode_append (wellFormed_unknown hc hp) []
  rwa [List.append_nil] at hd

end Sys2Proof.Machine
end

