-- ==== Sys2Proof/Proofs/Tick.lean ====
section
/-! PROOF. The tick and the CHECK_KEYBOARD cycle (`46_tick.md`). First the two things a tick does in CHECK_KEYBOARD (R170 to
R172). For the cycle (R177), `cycleIndex n` is CK_INDEX after `n` fires; a due tick emits its frame and moves on to
`cycleIndex (n + 1)`, and every other event, unless it delivers a mode switch or is `Reset`, keeps MODE and emits no frame of
the length of a fire frame. Both clauses of the cycle are inductions over the events from that. -/

namespace Sys2Proof.Machine

/-! ## What a tick does in CHECK_KEYBOARD -/

/-- R171, R172: a due tick fires. -/
theorem tick_due {s : State} {index : Fin 16} {due now : Nat} (hm : s.mode = .checkKeyboard index due) (h : due ≤ now) :
    tick now s = .next ((s.advanceFire index now).txEmit (fireFrame (indexByte index))) := by
  rcases tick_cases now s with ⟨-, hearly⟩ | ⟨i, n, hm', -, hfire⟩
  · exact absurd h (Nat.not_le.mpr (hearly index due hm))
  · cases hm.symm.trans hm'
    exact hfire

/-- R171: an early tick does nothing. -/
theorem tick_early {s : State} {index : Fin 16} {due now : Nat} (hm : s.mode = .checkKeyboard index due) (h : now < due) :
    tick now s = .next s := by
  rcases tick_cases now s with ⟨hkeep, -⟩ | ⟨i, n, hm', hdue, -⟩
  · exact hkeep
  · cases hm.symm.trans hm'
    exact absurd h (Nat.not_lt.mpr hdue)

/-- Settles O39: in CHECK_KEYBOARD by the due and the early tick; the other modes are not CHECK_KEYBOARD; without an event
nothing is done. -/
theorem tickFiresWhenDue : Obligations.TickFiresWhenDue := by
  refine ⟨fun s now due index es hm => ⟨fun h => ?_, fun h => ?_⟩, fun s now es hm => ?_, fun s => step_idle⟩
  · exact ⟨nextIndex index, nextIndex_val index, (step_tick rfl).trans (tick_due (s := { s with input := es }) hm h)⟩
  · exact (step_tick rfl).trans (tick_early (s := { s with input := es }) hm h)
  · refine (step_tick rfl).trans (tick_of_ne_checkKeyboard (s := { s with input := es }) (fun i n hck => ?_) now)
    rcases hm with hm | hm | hm | hm <;> cases hm.symm.trans hck

/-! ## The cycle of indices and its frames -/

/-- R173: CK_INDEX after `n` fires from index 1. -/
def cycleIndex (n : Nat) : Fin 16 := ⟨1 + n % 15, by omega⟩

/-- R151: entry to CHECK_KEYBOARD is the cycle after no fires. -/
theorem cycleIndex_zero : cycleIndex 0 = 1 := rfl

@[simp] theorem cycleIndex_val (n : Nat) : (cycleIndex n).val = 1 + n % 15 := rfl

theorem nextIndex_cycleIndex (n : Nat) : nextIndex (cycleIndex n) = cycleIndex (n + 1) := by
  apply Fin.ext
  rw [nextIndex_val, cycleIndex_val, cycleIndex_val]
  omega

/-- R173: the next fire frame of the sequence carries the index that the fires before it have led to. -/
theorem fireFrames_succ (n : Nat) : fireFrames (n + 1) = fireFrames n ++ [fireFrame (indexByte (cycleIndex n))] := by
  rw [fireFrames, List.range_succ, List.map_append]
  rfl

/-- The fire frames among some frames: they are the ones of seven bytes. -/
def firesIn (fs : List (List Byte)) : List (List Byte) := fs.filter fun f => f.length = 7

@[simp] theorem firesIn_nil : firesIn [] = [] := rfl
@[simp] theorem firesIn_fireFrame (i : Byte) : firesIn [fireFrame i] = [fireFrame i] := rfl
@[simp] theorem firesIn_append (fs gs : List (List Byte)) : firesIn (fs ++ gs) = firesIn fs ++ firesIn gs :=
  List.filter_append ..

/-- R125: no instruction emits a fire frame; an acknowledgement has four bytes and a press frame nine. -/
@[simp] theorem firesIn_effTx (i : Instr) (m : Mode) : firesIn (effTx i m) = [] := by
  cases i with
  | btnPressed p =>
    rw [effTx]
    split <;> rfl
  | _ => rfl

/-! ## Spaced ticks -/

/-- R177: the times after the first are spaced, and the next of them is `gap` or more after it. -/
theorem spacedBy_cons (gap a : Nat) (ts : List Nat) :
    spacedBy gap (a :: ts) = true ↔ (∀ b ∈ ts.head?, a + gap ≤ b) ∧ spacedBy gap ts = true := by
  cases ts <;> simp [spacedBy]

/-- R177: spaced ticks from a due one on each fire, so from `n` fires they lead to `n` and as many as they are. -/
theorem run_spaced_ticks {ts : List Nat} {s : State} {es : List Event} {tx : List (List Byte)} {n due : Nat}
    (hin : s.input = ts.map Event.tick ++ es) (hm : s.mode = .checkKeyboard (cycleIndex n) due)
    (htx : s.tx = tx ++ fireFrames n) (hfirst : ∀ first ∈ ts.head?, due ≤ first) (hsp : spacedBy s.interval ts = true) :
    ∃ next, run ts.length s = .next { s with
      mode := .checkKeyboard (cycleIndex (n + ts.length)) next
      input := es
      tx := tx ++ fireFrames (n + ts.length) } := by
  induction ts generalizing s n due with
  | nil =>
    have hes : s.input = es := hin
    refine ⟨due, congrArg _ ?_⟩
    rw [List.length_nil, Nat.add_zero, ← hm, ← htx, ← hes]
  | cons now ts ih =>
    obtain ⟨hnext, hsp'⟩ := (spacedBy_cons _ _ _).mp hsp
    have hstep := (step_tick hin).trans
      (tick_due (s := { s with input := ts.map Event.tick ++ es }) hm (hfirst now rfl))
    rw [List.length_cons, run_succ hstep, Nat.add_comm ts.length 1, ← Nat.add_assoc]
    refine ih rfl (congrArg (Mode.checkKeyboard · _) (nextIndex_cycleIndex n)) ?_ hnext hsp'
    rw [State.txEmit_tx, State.advanceFire_tx, htx, fireFrames_succ, List.append_assoc]

/-! ## Any ticks and bytes -/

/-- R177: from MODE `m` to MODE `m'` the cycle is kept, `fs` being the frames emitted: after `n` fires it goes on with the
fires in `fs`. -/
def KeepsCycle (m m' : Mode) (fs : List (List Byte)) : Prop :=
  ∀ n due, m = .checkKeyboard (cycleIndex n) due →
    ∃ n' due', m' = .checkKeyboard (cycleIndex n') due' ∧ fireFrames n' = fireFrames n ++ firesIn fs

theorem KeepsCycle.of_firesIn_eq_nil {fs : List (List Byte)} (h : firesIn fs = []) (m : Mode) : KeepsCycle m m fs :=
  fun n due hm => ⟨n, due, hm, by rw [h, List.append_nil]⟩

theorem KeepsCycle.trans {m m' m'' : Mode} {fs gs : List (List Byte)} (h : KeepsCycle m m' fs) (h' : KeepsCycle m' m'' gs) :
    KeepsCycle m m'' (fs ++ gs) := by
  intro n due hm
  obtain ⟨n', due', hm', hf⟩ := h n due hm
  obtain ⟨n'', due'', hm'', hf'⟩ := h' n' due' hm'
  exact ⟨n'', due'', hm'', by rw [hf', hf, firesIn_append, List.append_assoc]⟩

/-- R172, R173: a fire goes one further in the cycle. -/
theorem KeepsCycle.fire (index : Fin 16) (due next : Nat) :
    KeepsCycle (.checkKeyboard index due) (.checkKeyboard (nextIndex index) next) [fireFrame (indexByte index)] := by
  intro n due' hm
  cases hm
  exact ⟨n + 1, next, by rw [nextIndex_cycleIndex], by rw [fireFrames_succ, firesIn_fireFrame]⟩

/-- Some events lead from `s` to `t`: they emit the frames `fs` and observe the packets `ps`, and they keep the cycle if none
of these is a mode switch. -/
structure Stretch (s t : State) (fs : List (List Byte)) (ps : List Packet) : Prop where
  tx : t.tx = s.tx ++ fs
  obs : t.obs = s.obs ++ ps
  cycle : (∀ p ∈ ps, modeSwitchByte p.command = false) → KeepsCycle s.mode t.mode fs

theorem Stretch.refl (s : State) : Stretch s s [] [] :=
  ⟨(List.append_nil _).symm, (List.append_nil _).symm, fun _ => .of_firesIn_eq_nil firesIn_nil s.mode⟩

theorem Stretch.trans {s t u : State} {fs gs : List (List Byte)} {ps qs : List Packet} (h : Stretch s t fs ps)
    (h' : Stretch t u gs qs) : Stretch s u (fs ++ gs) (ps ++ qs) where
  tx := by rw [h'.tx, h.tx, List.append_assoc]
  obs := by rw [h'.obs, h.obs, List.append_assoc]
  cycle hps := by
    rw [List.forall_mem_append] at hps
    exact (h.cycle hps.1).trans (h'.cycle hps.2)

/-- R170, R175: a tick emits its fire at most, and observes nothing. -/
theorem tick_stretch (now : Nat) (s : State) :
    ∃ t fs, tick now s = .next t ∧ t.input = s.input ∧ Stretch s t fs [] := by
  rcases tick_cases now s with ⟨hkeep, -⟩ | ⟨index, due, hm, -, hfire⟩
  · exact ⟨s, [], hkeep, rfl, .refl s⟩
  · refine ⟨_, [fireFrame (indexByte index)], hfire, rfl, rfl, (List.append_nil _).symm, fun _ => ?_⟩
    rw [hm]
    exact .fire index due _

/-- R125, R136: what the Framer makes of bytes emits no fire frame. -/
theorem applyItems_tx (its : List Item) (s : State) : ∃ fs, (applyItems its s).tx = s.tx ++ fs ∧ firesIn fs = [] := by
  induction its generalizing s with
  | nil => exact ⟨[], (List.append_nil _).symm, rfl⟩
  | cons it its ih =>
    obtain ⟨fs, htx, hfs⟩ := ih (applyItem s it)
    cases it with
    | error c => exact ⟨fs, htx, hfs⟩
    | packet i =>
      refine ⟨effTx i s.mode ++ fs, ?_, by rw [firesIn_append, firesIn_effTx, hfs, List.append_nil]⟩
      rw [← List.append_assoc]
      exact htx

/-- R137: bytes move the cycle by a mode switch among their packets only. -/
theorem feed_stretch (bs : List Byte) (s : State) :
    ∃ t fs ps, feed bs s = .next t ∧ t.input = s.input ∧ Stretch s t fs ps := by
  obtain ⟨fs, htx, hfs⟩ := applyItems_tx (parse (s.rxbuf ++ bs)).1 s
  refine ⟨_, fs, _, feed_eq bs s, applyItems_input _ s, htx, applyItems_obs _ s, fun hps => ?_⟩
  rw [State.setRxbuf_mode, applyItems_mode hps]
  exact .of_firesIn_eq_nil hfs s.mode

/-- R8: every event but `Reset` is a stretch. -/
theorem step_stretch {s : State} {e : Event} {es : List Event} (hin : s.input = e :: es) (he : e ≠ .reset) :
    ∃ t fs ps, step s = .next t ∧ t.input = es ∧ Stretch s t fs ps := by
  cases e with
  | reset => exact absurd rfl he
  | rxByte b =>
    obtain ⟨t, fs, ps, ht, hin', htx, hobs, hcycle⟩ := feed_stretch [b] { s with input := es }
    exact ⟨t, fs, ps, (step_rxByte hin).trans ht, hin', htx, hobs, hcycle⟩
  | tick now =>
    obtain ⟨t, fs, ht, hin', htx, hobs, hcycle⟩ := tick_stretch now { s with input := es }
    exact ⟨t, fs, [], (step_tick hin).trans ht, hin', htx, hobs, hcycle⟩

/-- R177: so are any number of events, none of them `Reset`. -/
theorem run_stretch {evs es : List Event} {s : State} (hin : s.input = evs ++ es) (hreset : Event.reset ∉ evs) :
    ∃ t fs ps, run evs.length s = .next t ∧ Stretch s t fs ps := by
  induction evs generalizing s with
  | nil => exact ⟨s, [], [], rfl, .refl s⟩
  | cons e evs ih =>
    rw [List.mem_cons, not_or] at hreset
    obtain ⟨hne, hreset'⟩ := hreset
    obtain ⟨u, fs, ps, hu, hin', hsu⟩ := step_stretch hin (Ne.symm hne)
    obtain ⟨t, gs, qs, ht, hut⟩ := ih hin' hreset'
    exact ⟨t, fs ++ gs, ps ++ qs, (run_succ hu).trans ht, hsu.trans hut⟩

/-- Settles O41: index 1 is the cycle after no fires. From there every spaced tick fires, and any ticks and bytes without a
mode switch keep the cycle, so the fires they emit are its first ones. -/
theorem checkKeyboardCycles : Obligations.CheckKeyboardCycles := by
  refine ⟨fun ts s es due hm hfirst hsp => ?_, fun evs es s due hm hreset => ?_⟩
  · rw [← cycleIndex_zero] at hm
    obtain ⟨next, hrun⟩ := run_spaced_ticks (s := { s with input := ts.map Event.tick ++ es }) (n := 0) rfl hm
      (List.append_nil s.tx).symm hfirst hsp
    rw [Nat.zero_add] at hrun
    exact ⟨_, next, hrun⟩
  · obtain ⟨t, fs, ps, hrun, htx, hobs, hcycle⟩ := run_stretch (s := { s with input := evs ++ es }) rfl hreset
    rw [← cycleIndex_zero] at hm
    refine ⟨t, fs, ps, hrun, htx, hobs, fun hps => ?_⟩
    obtain ⟨n, -, -, hfires⟩ := hcycle hps 0 due hm
    exact ⟨n, hfires.symm⟩

end Sys2Proof.Machine
end

