-- ==== Sys2Proof/Proofs/Decoder.lean ====
section
/-! PROOF. Decoder and encoder are inverse (`30_encoding.md` R70 to R76, R88): both directions were proved with the frames and
the button commands, and are stated here as the round trips they are. The written frames are evaluated; a table word that the
decoder reads is the frame of its instruction, and so runs as one (R87). -/

namespace Sys2Proof.Machine

/-- Settles O3: a frame at the front is one whole candidate that passes its tests, and the bytes behind it are left. -/
theorem decodeEncodeRoundTrip : Obligations.DecodeEncodeRoundTrip :=
  fun _ rest h => decode_encode_append h rest

/-- Settles O4: what is accepted is a whole candidate that passes its tests, and such a candidate is the frame of the
well-formed instruction that its Command byte selects. -/
theorem decodeAcceptsOnlyEncodings : Obligations.DecodeAcceptsOnlyEncodings :=
  fun _ _ _ h => wellFormed_and_eq_encode_append_of_decode h

/-- Settles O2: each frame is evaluated. -/
theorem writtenFramesDecode : Obligations.WrittenFramesDecode :=
  ⟨rfl, rfl, rfl, rfl, rfl, rfl, rfl, rfl, rfl, rfl⟩

/-- R87: a table word that the decoder reads stands for the frame of a well-formed instruction. -/
theorem tableFrame_eq_encode {nbits w : Nat} {i : Instr} (h : decodeTableWord nbits w = some i) :
    i.WellFormed ∧ tableFrame nbits w = encode i := by
  have hd : decode (tableFrame nbits w) = .ok (i, []) := by
    unfold decodeTableWord at h
    split at h
    next j hj =>
      cases h
      exact hj
    · cases h
    · cases h
  obtain ⟨hwf, he⟩ := wellFormed_and_eq_encode_append_of_decode hd
  exact ⟨hwf, by rw [he, List.append_nil]⟩

/-- R87: such a word is placed as a frame, all of it received but the Checksum byte. -/
theorem withFetchWord_eq_placeFrame {nbits w : Nat} {i : Instr} (h : decodeTableWord nbits w = some i) (s : State) :
    s.withFetchWord nbits w = placeFrame (encode i) s := by
  rw [State.withFetchWord, h, ← (tableFrame_eq_encode h).2]

/-- Settles O9: the word is placed as the frame of its instruction, and the next step receives the Checksum byte. -/
theorem placedWordRunsNext : Obligations.PlacedWordRunsNext := by
  intro s nbits w i h
  obtain ⟨hwf, -⟩ := tableFrame_eq_encode h
  rw [withFetchWord_eq_placeFrame h]
  exact ⟨hwf, (step_rxByte rfl).trans (feed_getLastD_encode s hwf)⟩

end Sys2Proof.Machine
end

