-- ==== Sys2Proof/Proofs/Chunks.lean ====
section
/-! PROOF. The RX stream in pieces (`40_framer.md` R100, R108): a feed goes on from where the one before it stopped, because
parsing does. From that, bytes as events in order are one feed, and noise in front of a frame does not matter (R113). Then the
residue: its three forms (R24), and its bound of 256 bytes (R110). Before all this, what a step can do, for every later proof
about a step. -/

namespace Sys2Proof.Machine

/-! ## What a step can do -/

/-- R8: a step waits, resets, feeds one byte, or ticks. -/
theorem step_cases {s t : State} (h : step s = .next t) :
    (s.input = [] ∧ t = s) ∨ (∃ es, s.input = .reset :: es ∧ t = resetEvent { s with input := es }) ∨
      (∃ b es, s.input = .rxByte b :: es ∧ feed [b] { s with input := es } = .next t) ∨
      ∃ now es, s.input = .tick now :: es ∧ tick now { s with input := es } = .next t := by
  cases hin : s.input with
  | nil => exact .inl ⟨rfl, Host.Outcome.next.inj (h.symm.trans (step_idle hin))⟩
  | cons e es =>
    cases e with
    | reset => exact .inr (.inl ⟨es, rfl, Host.Outcome.next.inj (h.symm.trans (step_reset hin))⟩)
    | rxByte b => exact .inr (.inr (.inl ⟨b, es, rfl, (step_rxByte hin).symm.trans h⟩))
    | tick now => exact .inr (.inr (.inr ⟨now, es, rfl, (step_tick hin).symm.trans h⟩))

/-! ## Feeds one after another -/

/-- R135: every feed answers a state. -/
theorem feed_answers (bs : List Byte) (s : State) : ∃ t, feed bs s = .next t := ⟨_, feed_eq bs s⟩

/-- R108: a feed goes on from the state that the bytes before it led to. -/
theorem feed_append {a : List Byte} {s t : State} (h : feed a s = .next t) (b : List Byte) :
    feed (a ++ b) s = feed b t := by
  rw [feed_eq] at h
  cases h
  rw [feed_eq, feed_eq, ← List.append_assoc, parse_append, applyItems_append, State.setRxbuf_rxbuf, applyItems_setRxbuf,
    setRxbuf_setRxbuf]

/-- A feed does not look at the waiting events. -/
theorem feed_withInput {bs : List Byte} {s t : State} (h : feed bs s = .next t) (es : List Event) :
    feed bs { s with input := es } = .next { t with input := es } := by
  rw [feed_eq] at h
  cases h
  rw [feed_eq, applyItems_withInput]
  rfl

theorem feed_input {bs : List Byte} {s t : State} (h : feed bs s = .next t) : t.input = s.input := by
  rw [feed_eq] at h
  cases h
  exact applyItems_input _ s

/-- R24: what a feed leaves in RXBUF is a residue. -/
theorem rxbufOk_of_feed {bs : List Byte} {s t : State} (h : feed bs s = .next t) : rxbufOk t.rxbuf = true := by
  rw [feed_eq] at h
  cases h
  exact parse_residue_ok _

/-- Settles O31: a feed always answers a state, and the next feed goes on from it. -/
theorem chunkingDoesNotMatter : Obligations.ChunkingDoesNotMatter :=
  fun a b s => (feed_answers a s).imp fun _ h => ⟨h, feed_append h b⟩

/-- R100: from a residue, bytes as events are one feed of them. -/
theorem run_rxBytes {bs : List Byte} {s : State} {es : List Event} (hin : s.input = bs.map Event.rxByte ++ es)
    (hrx : rxbufOk s.rxbuf = true) : run bs.length s = feed bs { s with input := es } := by
  induction bs generalizing s with
  | nil =>
    have hes : s.input = es := hin
    subst hes
    have hrx' : rxbufOk (s.rxbuf ++ []) = true := by rwa [List.append_nil]
    rw [feed_residue hrx', setRxbuf_eq_self (List.append_nil _).symm]
    rfl
  | cons b bs ih =>
    obtain ⟨t, hfeed⟩ := feed_answers [b] { s with input := bs.map Event.rxByte ++ es }
    rw [List.length_cons, run_succ ((step_rxByte hin).trans hfeed), ih (feed_input hfeed) (rxbufOk_of_feed hfeed)]
    exact (feed_append (feed_withInput hfeed es) bs).symm

/-- Settles O32: each event feeds its byte, and the feeds together are one. -/
theorem feedIsByteEventsInOrder : Obligations.FeedIsByteEventsInOrder :=
  fun _ _ _ h => run_rxBytes rfl h

/-- Settles O35: the noise leaves the state as it is, and from HUNT the frame is delivered. -/
theorem resynchronisesAfterNoise : Obligations.ResynchronisesAfterNoise := by
  intro s noise i hs hn hwf
  refine ⟨?_, _, deliver_eq i s, (applyItem_rxbuf s _).trans hs, ?_⟩
  · rw [feed_append (feed_noise hs hn), feed_encode hs hwf]
  · rw [applyItem, applyInstr_obs, State.pktObs_obs]

/-! ## The residue -/

/-- R24: a residue is empty, SOF alone, or the beginning of a candidate with Length at least 1, the end still missing. -/
theorem rxbufOk_iff (buf : List Byte) :
    rxbufOk buf = true ↔ buf = [] ∨ buf = [Config.sof] ∨
      ∃ len body, buf = Config.sof :: len :: body ∧ 1 ≤ len.toNat ∧ body.length < len.toNat := by
  match buf with
  | [] => simp [rxbufOk]
  | [b] => simp [rxbufOk]
  | b :: len :: body =>
    simp only [rxbufOk, Bool.and_eq_true, beq_iff_eq, decide_eq_true_eq, BitVec.le_def]
    simp [and_assoc]

/-- R110: a residue has at most 256 bytes. -/
theorem length_le_of_rxbufOk {buf : List Byte} (h : rxbufOk buf = true) : buf.length ≤ 256 := by
  rcases (rxbufOk_iff buf).mp h with rfl | rfl | ⟨len, body, rfl, -, hlt⟩
  · exact Nat.zero_le _
  · exact Nat.one_le_ofNat
  · have := len.isLt
    rw [List.length_cons, List.length_cons]
    omega

/-- R110: SOF, Length 255 and 254 more bytes still wait. -/
theorem rxbufOk_longest {body : List Byte} (h : body.length = 254) : rxbufOk (Config.sof :: 0xFF :: body) = true :=
  (rxbufOk_iff _).mpr (.inr (.inr ⟨0xFF, body, rfl, by decide, by rw [h]; decide⟩))

/-- Settles O34: a feed leaves a residue; a residue has at most 256 bytes; the longest one is only collected. -/
theorem residueBounded : Obligations.ResidueBounded := by
  refine ⟨fun s t b es hin hstep => ?_, fun _ => length_le_of_rxbufOk, fun s body hs hbody => ⟨?_, ?_, ?_⟩⟩
  · have hok := rxbufOk_of_feed ((step_rxByte hin).symm.trans hstep)
    exact ⟨hok, length_le_of_rxbufOk hok⟩
  · have hbuf : s.rxbuf ++ 0xAA :: 0xFF :: body = Config.sof :: 0xFF :: body := by rw [hs]; rfl
    rw [feed_residue (by rw [hbuf]; exact rxbufOk_longest hbody), hbuf]
    rfl
  · exact rxbufOk_longest hbody
  · rw [List.length_cons, List.length_cons, hbody]

end Sys2Proof.Machine
end

