-- ==== Sys2Proof/Proofs/Candidates.lean ====
section
/-! PROOF. What becomes of a whole candidate in the stream. It is consumed with its one item, so what follows is read from HUNT
(`70_reset_and_hazards.md` R220), and a long enough flush ends in HUNT (R222). Which item it is: Length 0 and 1 are dropped
(`40_framer.md` R104, R107), and one wrong byte is a checksum error (R114), because the sum moves with every byte. -/

namespace Sys2Proof.Machine

/-! ## One candidate from HUNT -/

section
variable {s : State} (hs : s.rxbuf = []) {len : Byte} {body : List Byte} (hlen : body.length = len.toNat)
include hs hlen

/-- R101: from HUNT, a whole candidate has the effect of its item and leaves HUNT. -/
theorem feed_candidate_of_hunt : feed (Config.sof :: len :: body) s =
    .next (applyItem s (itemOf (Config.sof :: len :: body))) := by
  have hbuf : s.rxbuf ++ Config.sof :: len :: body = Config.sof :: len :: body := by rw [hs, List.nil_append]
  rw [feed_candidate hbuf hlen, setRxbuf_eq_self ((applyItem_rxbuf s _).trans hs)]

/-- R105, R107: one that fails a test only raises its error. -/
theorem feed_of_itemOf_error {c : FramingCause} (h : itemOf (Config.sof :: len :: body) = .error c) :
    feed (Config.sof :: len :: body) s = .next (s.raise (.framing c)) := by
  rw [feed_candidate_of_hunt hs hlen, h, applyItem]

end

theorem itemOf_of_error {f : List Byte} {c : FramingCause} (h : decodeCandidate f = .error c) : itemOf f = .error c := by
  rw [itemOf, h]

theorem itemOf_of_ok {f : List Byte} {i : Instr} (h : decodeCandidate f = .ok i) : itemOf f = .packet i := by
  rw [itemOf, h]

/-- Settles O37: the candidate has the effect of its one item, which the decoder's tests decide; the next bytes are another
feed. -/
theorem straySofSwallowsLengthBytes : Obligations.StraySofSwallowsLengthBytes := by
  intro s len body rest hs hlen
  have hfeed := feed_candidate_of_hunt hs hlen
  refine ⟨_, hfeed, (applyItem_rxbuf s _).trans hs, feed_append hfeed rest, ?_⟩
  cases hd : decodeCandidate (Config.sof :: len :: body) with
  | error c =>
    rw [itemOf_of_error hd]
    exact .inr ⟨c, hd, rfl⟩
  | ok i =>
    rw [itemOf_of_ok hd]
    exact .inl ⟨i, effTx i s.mode, effErrs i s.mode, hd, deliver_eq i s, rfl, effTx_length_le i _, effErrs_length_le i _⟩

/-! ## Short Lengths -/

/-- R104: Length 0 is the sum of no candidate that begins with SOF. -/
theorem itemOf_length_zero : itemOf [Config.sof, 0x00] = .error .checksum :=
  itemOf_checksum_mismatch (h := [Config.sof]) (by decide)

/-- R107: Length 1 is dropped by the length test when the checksum test passes. -/
theorem itemOf_length_one (x : Byte) :
    itemOf [Config.sof, 0x01, x] = .error (if x = 0xAB then .length else .checksum) := by
  have hsum : sum8 [Config.sof, 0x01] = 0xAB := by decide
  split
  next hx =>
    subst hx
    rfl
  next hx => exact itemOf_checksum_mismatch (h := [Config.sof, 0x01]) (by rwa [hsum])

/-- Settles O28: the byte completes the candidate, whose item is the error. -/
theorem shortLengthsDropped : Obligations.ShortLengthsDropped := by
  refine ⟨fun s es hs => ?_, fun s x es hs => ?_⟩
  · rw [step_rxByte rfl, feed_candidate (len := 0x00) (body := []) (by rw [hs]; rfl) rfl, itemOf_length_zero]
    rfl
  · rw [step_rxByte rfl, feed_candidate (len := 0x01) (body := [x]) (by rw [hs]; rfl) rfl, itemOf_length_one,
      ← apply_ite ErrorKind.framing]
    rfl

/-! ## One wrong byte -/

/-- R72: replacing a byte moves the sum by the difference. -/
theorem sum8_set {bs : List Byte} {k : Nat} (hk : k < bs.length) (x : Byte) :
    sum8 (bs.set k x) + bs.getD k 0 = sum8 bs + x := by
  induction bs generalizing k with
  | nil => exact absurd hk (Nat.not_lt_zero k)
  | cons b bs ih =>
    cases k with
    | zero =>
      rw [List.set_cons_zero, List.getD_cons_zero, sum8, sum8]
      ac_rfl
    | succ k =>
      have hrest := ih (Nat.lt_of_succ_lt_succ hk)
      rw [List.set_cons_succ, List.getD_cons_succ, sum8, sum8, BitVec.add_assoc, hrest, BitVec.add_assoc]

/-- R114: one wrong byte anywhere in a frame that ends in its sum makes it a checksum error, if it is still a candidate. -/
theorem itemOf_set_ne {h : List Byte} {k : Nat} {x : Byte} (hk : k < (h ++ [sum8 h]).length)
    (hx : x ≠ (h ++ [sum8 h]).getD k 0) : itemOf ((h ++ [sum8 h]).set k x) = .error .checksum := by
  rw [List.length_append, List.length_singleton] at hk
  rcases Nat.lt_succ_iff_lt_or_eq.mp hk with hlt | rfl
  · rw [List.getD_append _ _ _ _ hlt] at hx
    rw [List.set_append_left _ _ hlt]
    refine itemOf_checksum_mismatch fun hsum => hx ?_
    have hset := sum8_set hlt x
    rw [← hsum] at hset
    exact (BitVec.add_right_inj _).mp hset |>.symm
  · rw [List.set_append_right _ _ le_rfl, Nat.sub_self, List.set_cons_zero]
    refine itemOf_checksum_mismatch fun hsum => hx ?_
    rw [hsum, List.getD_append_right _ _ _ _ le_rfl, Nat.sub_self, List.getD_cons_zero]

/-- A flipped bit makes another byte. -/
theorem xor_bit_ne (x : Byte) {j : Nat} (hj : j < 8) : x ^^^ (1#8 <<< j) ≠ x := by
  intro h
  have hbit := congrArg (fun y => y.getLsbD j) h
  simp [hj] at hbit

/-- R114: a frame of a well-formed instruction with one wrong byte behind its Length byte only raises the checksum error. -/
theorem feed_encode_set {i : Instr} {s : State} {k : Nat} {x : Byte} (hs : s.rxbuf = []) (hwf : i.WellFormed) (h2 : 2 ≤ k)
    (hk : k < (encode i).length) (hx : x ≠ (encode i).getD k 0) :
    feed ((encode i).set k x) s = .next (s.raise (.framing .checksum)) := by
  have hitem := itemOf_set_ne hk hx
  obtain ⟨len, body, he, hlen, -⟩ := encode_eq_candidate hwf
  obtain ⟨k, rfl⟩ := Nat.exists_eq_add_of_le' h2
  have hset : (encode i).set (k + 2) x = Config.sof :: len :: body.set k x := by rw [he]; rfl
  rw [hset]
  exact feed_of_itemOf_error hs (List.length_set.trans hlen) (hset ▸ hitem)

/-- Settles O36: the flipped bit makes one byte wrong. -/
theorem singleBitErrorsDetected : Obligations.SingleBitErrorsDetected :=
  fun _ _ _ _ hs hwf h2 hk hj => feed_encode_set hs hwf h2 hk (xor_bit_ne _ hj)

/-! ## The flush -/

/-- R222: a whole candidate and then bytes free of SOF leave HUNT. -/
theorem parse_residue_eq_nil {len : Byte} {tail : List Byte} (hlen : len.toNat ≤ tail.length)
    (hn : Config.sof ∉ tail.drop len.toNat) : (parse (Config.sof :: len :: tail)).2 = [] := by
  have hnoise : parse (tail.drop len.toNat) = ([], []) := by simpa using parse_noise _ [] hn
  rw [← List.take_append_drop len.toNat tail, parse_candidate len _ _ (List.length_take_of_le hlen), hnoise]

/-- R222: 255 bytes free of SOF complete any candidate that is begun, if the first of them, taken as a Length byte, announces
no more than follow it. -/
theorem parse_flush {buf bs : List Byte} (hbuf : rxbufOk buf = true) (hn : Config.sof ∉ bs) (h255 : 255 ≤ bs.length)
    (hhead : ∀ len rest, bs = len :: rest → len.toNat ≤ rest.length) : (parse (buf ++ bs)).2 = [] := by
  rcases (rxbufOk_iff buf).mp hbuf with rfl | rfl | ⟨len, body, rfl, -, hlt⟩
  · have hnoise : parse bs = ([], []) := by simpa using parse_noise bs [] hn
    rw [List.nil_append, hnoise]
  · cases bs with
    | nil => exact absurd h255 (by decide)
    | cons len rest =>
      refine parse_residue_eq_nil (hhead len rest rfl) fun hmem => hn ?_
      exact List.mem_cons_of_mem _ (List.mem_of_mem_drop hmem)
  · refine parse_residue_eq_nil (tail := body ++ bs) ?_ fun hmem => hn ?_
    · have := len.isLt
      rw [List.length_append]
      omega
    · rw [List.drop_append, List.drop_eq_nil_of_le hlt.le, List.nil_append] at hmem
      exact List.mem_of_mem_drop hmem

/-- Settles O38: both floods meet what `parse_flush` asks: 00 announces nothing, and no Length byte announces more than 255. -/
theorem flushReachesHunt : Obligations.FlushReachesHunt := by
  refine ⟨fun s n hs hn => ⟨_, feed_eq _ s, parse_flush hs ?_ ?_ ?_⟩,
    fun s bs hs hlen hn => ⟨_, feed_eq bs s, parse_flush hs hn ?_ ?_⟩⟩
  · intro hmem
    exact absurd (List.eq_of_mem_replicate hmem) (by decide)
  · rwa [List.length_replicate]
  · intro len rest hcons
    have hzero : len = 0x00 := List.eq_of_mem_replicate (hcons ▸ List.mem_cons_self)
    rw [hzero]
    exact Nat.zero_le _
  · omega
  · intro len rest hcons
    have := len.isLt
    rw [hcons, List.length_cons] at hlen
    omega

end Sys2Proof.Machine
end

