-- ==== Sys2Proof/Proofs/ByteSerial.lean ====
section
/-! PROOF. The byte-serial parser refines the buffer algorithm (`40_framer.md` R103). The simulation is stated on the parser
alone: on a residue, one more byte makes `parse` answer what `feedByte` reports, and leave the RXBUF of the registers that
`feedByte` leaves. On the state the two then have the same effect. The registers are those of their RXBUF as long as SUM is the
sum of what was received (R109). -/

namespace Sys2Proof.Machine

/-! ## The two views of a residue -/

/-- R25: RXBUF is recovered from the registers. -/
theorem toRxbuf_parserRegs {buf : List Byte} (h : rxbufOk buf = true) : (parserRegs buf).toRxbuf = buf := by
  rcases (rxbufOk_iff buf).mp h with rfl | rfl | ⟨len, body, rfl, -, -⟩ <;> rfl

/-- R25: CNT counts the bytes after Length. -/
theorem cnt_parserRegs (buf : List Byte) : (parserRegs buf).cnt = buf.length - 2 := by
  match buf with
  | [] => rfl
  | [_] => rfl
  | _ :: _ :: _ => rfl

/-- R25: PHASE tells how much of SOF and Length has been received. -/
theorem phase_parserRegs_iff (buf : List Byte) :
    ((parserRegs buf).phase = .hunt ↔ buf.length = 0) ∧ ((parserRegs buf).phase = .len ↔ buf.length = 1) := by
  match buf with
  | [] => simp [parserRegs, ParserRegs.phase]
  | [_] => simp [parserRegs, ParserRegs.phase]
  | _ :: _ :: _ => simp [parserRegs, ParserRegs.phase]

/-- R109: the registers are those of their RXBUF: in BODY, SUM is the sum of the bytes received. -/
def ParserRegs.Coherent (r : ParserRegs) : Prop := r = parserRegs r.toRxbuf

theorem ParserRegs.coherent_body_iff (lenr sum : Byte) (mem : List Byte) :
    (ParserRegs.body lenr sum mem).Coherent ↔ sum = sum8 (Config.sof :: lenr :: mem) := by
  simp [Coherent, toRxbuf, parserRegs]

theorem coherent_parserRegs {buf : List Byte} (h : rxbufOk buf = true) : (parserRegs buf).Coherent := by
  rw [ParserRegs.Coherent, toRxbuf_parserRegs h]

/-- R103, R109: a byte-serial step keeps SUM the running sum. -/
theorem ParserRegs.Coherent.feedByte {r : ParserRegs} (h : r.Coherent) (b : Byte) : (r.feedByte b).1.Coherent := by
  cases r with
  | hunt =>
    rw [ParserRegs.feedByte]
    split <;> rfl
  | len =>
    rw [ParserRegs.feedByte]
    split
    · rfl
    · exact (coherent_body_iff _ _ _).mpr (congrArg (Config.sof + ·) (BitVec.add_zero b).symm)
  | body lenr sum mem =>
    rw [coherent_body_iff] at h
    rw [ParserRegs.feedByte]
    split
    · rw [coherent_body_iff, h]
      exact (sum8_concat (Config.sof :: lenr :: mem) b).symm
    · split
      · rfl
      · split <;> rfl

/-! ## The simulation -/

/-- What the byte-serial parser reports, as the items of the buffer algorithm. -/
def ParserOut.items : ParserOut → List Item
  | .quiet => []
  | .error cause => [.error cause]
  | .deliver f => [.packet (packetOf f)]

/-- R103: on the state, the byte-serial step is the effect of what the parser reports, and RXBUF is the registers'. -/
theorem rxByteSerial_eq (b : Byte) (s : State) :
    rxByteSerial b s = .next ((applyItems ((parserRegs s.rxbuf).feedByte b).2.items s).setRxbuf
      ((parserRegs s.rxbuf).feedByte b).1.toRxbuf) := by
  unfold rxByteSerial
  split
  next regs hfeed => rw [hfeed]; rfl
  next regs cause hfeed => rw [hfeed]; rfl
  next regs f hfeed => rw [hfeed, deliver_eq, applyItem_setRxbuf]; rfl

/-- R101: a whole candidate at the end of the stream is one item and leaves HUNT. -/
theorem parse_whole_candidate {len : Byte} {body : List Byte} (h : body.length = len.toNat) :
    parse (Config.sof :: len :: body) = ([itemOf (Config.sof :: len :: body)], []) := by
  simpa using parse_candidate len body [] h

/-- R105, R107: the tests on the last byte of a candidate, by the running sum. -/
theorem itemOf_last_byte (lenr b : Byte) (mem : List Byte) :
    itemOf (Config.sof :: lenr :: (mem ++ [b])) =
      if b ≠ sum8 (Config.sof :: lenr :: mem) then .error .checksum
      else if lenr < 2 then .error .length
      else .packet (packetOf (Config.sof :: lenr :: (mem ++ [b]))) := by
  have hd := decodeCandidate_append (Config.sof :: lenr :: mem) b
  split
  next hb => exact itemOf_checksum_mismatch hb
  next hb =>
    rw [if_neg hb] at hd
    split
    next hl => exact itemOf_of_error (hd.trans (if_pos hl))
    next hl => exact itemOf_of_ok (hd.trans (if_neg hl))

/-- R103: on a residue, one byte makes the buffer algorithm answer what the byte-serial step answers. -/
theorem parse_concat_eq_feedByte {buf : List Byte} (h : rxbufOk buf = true) (b : Byte) :
    parse (buf ++ [b]) = (((parserRegs buf).feedByte b).2.items, ((parserRegs buf).feedByte b).1.toRxbuf) := by
  rcases (rxbufOk_iff buf).mp h with rfl | rfl | ⟨lenr, mem, rfl, h1, hlt⟩
  · rw [parserRegs, ParserRegs.feedByte]
    split
    next hb => subst hb; rfl
    next hb => exact parse_noise [b] [] (List.mem_singleton.not.mpr (Ne.symm hb))
  · rw [parserRegs, ParserRegs.feedByte]
    split
    next hb =>
      subst hb
      rw [List.singleton_append, parse_whole_candidate rfl, itemOf_length_zero]
      rfl
    next hb =>
      have hpos : 1 ≤ b.toNat := by bv_omega
      exact parse_ok _ ((rxbufOk_iff _).mpr (.inr (.inr ⟨b, [], rfl, hpos, hpos⟩)))
  · rw [parserRegs, ParserRegs.feedByte, List.cons_append, List.cons_append]
    split
    next hmore =>
      refine parse_ok _ ((rxbufOk_iff _).mpr (.inr (.inr ⟨lenr, mem ++ [b], rfl, h1, ?_⟩)))
      rw [List.length_append, List.length_singleton]
      omega
    next hwhole =>
      have hlen : (mem ++ [b]).length = lenr.toNat := by
        rw [List.length_append, List.length_singleton]
        omega
      rw [parse_whole_candidate hlen, itemOf_last_byte]
      split
      · rfl
      · split <;> rfl

/-- Settles O33: the two parsers simulate each other on every residue, and the step keeps SUM; the two views by their cases. -/
theorem byteSerialStepRefinesDrain : Obligations.ByteSerialStepRefinesDrain := by
  refine ⟨fun s b h => ?_, fun buf b h => (coherent_parserRegs h).feedByte b, fun buf => toRxbuf_parserRegs,
    fun buf _ => ⟨cnt_parserRegs buf, phase_parserRegs_iff buf⟩⟩
  rw [rxByteSerial_eq, rxByte, feed_eq, parse_concat_eq_feedByte h]

end Sys2Proof.Machine
end

