-- ==== Sys2Proof/Proofs/Builders.lean ====
section
/-! PROOF. The builders (`41_codec_tx.md` R121 to R124). `status` is `build` of the two pins, the number of pairs and the pair
bytes, two for each pair (R79); its layout is that of `frameBytes` with the pairs found by their offset. -/

namespace Sys2Proof.Machine

/-! ## The pair bytes -/

@[simp] theorem pairBytes_cons (pair : Byte × Byte) (pairs : List (Byte × Byte)) :
    pairBytes (pair :: pairs) = pair.1 :: pair.2 :: pairBytes pairs := rfl

@[simp] theorem length_pairBytes (pairs : List (Byte × Byte)) : (pairBytes pairs).length = 2 * pairs.length := by
  induction pairs with
  | nil => rfl
  | cons pair pairs ih =>
    rw [pairBytes_cons, List.length_cons, List.length_cons, ih, List.length_cons]
    omega

/-- R79: pair `k` stands at offset `2k`, address before state. -/
theorem pairBytes_getD {pairs : List (Byte × Byte)} {k : Nat} (hk : k < pairs.length) :
    (pairBytes pairs).getD (2 * k) 0 = pairs[k].1 ∧ (pairBytes pairs).getD (2 * k + 1) 0 = pairs[k].2 := by
  induction pairs generalizing k with
  | nil => exact absurd hk (Nat.not_lt_zero k)
  | cons pair pairs ih =>
    cases k with
    | zero => exact ⟨rfl, rfl⟩
    | succ k => exact ih (Nat.lt_of_succ_lt_succ hk)

/-! ## The status frame -/

/-- R124: the payload of a status frame. -/
def statusPayload (p1 p2 : Byte) (pairs : List (Byte × Byte)) : List Byte :=
  p1 :: p2 :: BitVec.ofNat 8 pairs.length :: pairBytes pairs

theorem status_eq_build (p1 p2 : Byte) (pairs : List (Byte × Byte)) :
    status p1 p2 pairs = build 0x0C (statusPayload p1 p2 pairs) := rfl

@[simp] theorem length_statusPayload (p1 p2 : Byte) (pairs : List (Byte × Byte)) :
    (statusPayload p1 p2 pairs).length = 3 + 2 * pairs.length := by
  rw [statusPayload, List.length_cons, List.length_cons, List.length_cons, length_pairBytes]
  omega

/-- R79, R124: pair `k` of a status frame stands at frame bytes `6 + 2k` and `7 + 2k`. -/
theorem encode_statusUpdate_getD (p1 p2 : Byte) {pairs : List (Byte × Byte)} {k : Nat} (hk : k < pairs.length) :
    (encode (.statusUpdate (statusPayload p1 p2 pairs))).getD (6 + 2 * k) 0 = pairs[k].1 ∧
      (encode (.statusUpdate (statusPayload p1 p2 pairs))).getD (7 + 2 * k) 0 = pairs[k].2 := by
  have hsize : (Instr.statusUpdate (statusPayload p1 p2 pairs)).payload.length = 3 + 2 * pairs.length :=
    length_statusPayload p1 p2 pairs
  have h6 : 6 + 2 * k = 3 + (2 * k + 3) := by omega
  have h7 : 7 + 2 * k = 3 + (2 * k + 1 + 3) := by omega
  rw [h6, h7, encode_getD_payload _ (by omega), encode_getD_payload _ (by omega)]
  exact pairBytes_getD hk

/-- Settles O7: up to 125 pairs the payload is within the bound, so `status` answers its frame; beyond, `build` answers none. -/
theorem statusFrameLayout : Obligations.StatusFrameLayout := by
  intro p1 p2 pairs
  have hsize := length_statusPayload p1 p2 pairs
  rw [status_eq_build]
  refine ⟨fun h => build_tooLong _ _ (by omega), fun h => ?_⟩
  have hfits : (statusPayload p1 p2 pairs).length ≤ 253 := by omega
  obtain ⟨-, hlen, hck⟩ := frameBytes_shape 0x0C _ hfits
  refine ⟨_, build_fits _ _ hfits, by omega, ?_, fun k hk => encode_statusUpdate_getD p1 p2 hk, hck⟩
  rw [frameBytes_eq, hsize, Nat.add_right_comm]
  rfl

/-! ## The wrappers -/

/-- Settles O8: the acknowledgement in closed form, the two-pin frame in closed form, and `build` beyond the bound. -/
theorem builderWrappersAndBound : Obligations.BuilderWrappersAndBound :=
  ⟨fun c => ⟨rfl, buildNoPayload_eq c⟩,
    fun c p1 p2 => (build_fits c [p1, p2] (by simp)).trans (congrArg some (frameBytes_two_pins c p1 p2)),
    buildNoPayload_eq 0x01, buildNoPayload_eq 0x07, buildNoPayload_eq 0x08, buildNoPayload_eq 0x09, by decide,
    build_tooLong⟩

end Sys2Proof.Machine
end

