-- ==== Sys2Proof/Proofs/DecisionTable.lean ====
section
/-! PROOF. The MODE by command table (`42_dispatch.md` R134). `effMode`, `effTx` and `effErrs` are its three columns, so `exec`
is the table. What an instruction leaves alone, and what the mode switches do (R150, R151), are read off the columns; what
else can change the active mode is a question of the three events. -/

namespace Sys2Proof.Machine

/-! ## The columns of the table -/

/-- R134: the frame column, for a command that is neither acknowledged nor BTN_PRESSED. -/
theorem tableReply_eq_nil {c : Byte} (h : c ∉ ([0x01, 0x02, 0x07, 0x08, 0x09] : List Byte)) (p : List Byte) (m : Mode) :
    tableReply c p m = [] := by
  simp only [List.mem_cons, List.not_mem_nil, or_false, not_or] at h
  obtain ⟨h1, h2, h7, h8, h9⟩ := h
  rw [tableReply, if_neg (by tauto), if_neg fun ⟨hc, _⟩ => h2 hc]

/-- R134: only BTN_PRESSED looks at MODE and payload to choose its frames. -/
theorem tableReply_of_ne_btnPressed {c : Byte} (h : c ≠ 0x02) (p q : List Byte) (m m' : Mode) :
    tableReply c p m = tableReply c q m' := by
  simp only [tableReply, h, false_and, if_false]

/-- R135, R183: only BTN_PRESSED raises. -/
theorem tableErrors_of_ne_btnPressed {c : Byte} (h : c ≠ 0x02) (p : List Byte) (m : Mode) : tableErrors c p m = [] := by
  rw [tableErrors, if_neg fun ⟨hc, _⟩ => h hc]

/-- R150: a mode switch overwrites MODE. -/
theorem tableMode_of_modeSwitch {c : Byte} (h : modeSwitchByte c = true) (m m' : Mode) :
    tableMode c m = tableMode c m' := by
  simp only [modeSwitchByte, Bool.and_eq_true, decide_eq_true_eq] at h
  have hc : c = 0x04 ∨ c = 0x05 ∨ c = 0x06 ∨ c = 0x07 ∨ c = 0x08 := by bv_omega
  rcases hc with rfl | rfl | rfl | rfl | rfl <;> rfl

theorem effTx_eq_tableReply {i : Instr} (hwf : i.WellFormed) (m : Mode) :
    effTx i m = tableReply i.command i.payload m := by
  cases i with
  | btnPressed p => simp [effTx, tableReply, Instr.command, Instr.payload]
  | unknown c p =>
    have hc := unnamedCommand_of_wellFormed hwf
    refine (tableReply_eq_nil (fun hmem => ?_) p m).symm
    have hnamed : ∀ b ∈ ([0x01, 0x02, 0x07, 0x08, 0x09] : List Byte), unnamedCommand b ≠ true := by decide
    exact hnamed c hmem hc
  | _ => rfl

theorem effErrs_eq_tableErrors {i : Instr} (hwf : i.WellFormed) (m : Mode) :
    effErrs i m = tableErrors i.command i.payload m := by
  cases i with
  | btnPressed p => simp [effErrs, tableErrors, Instr.command, Instr.payload]
  | unknown c p =>
    exact (tableErrors_of_ne_btnPressed (ne_btnPressed_of_unnamedCommand (unnamedCommand_of_wellFormed hwf)) p m).symm
  | _ => rfl

/-- R134: `exec` is the decision table. -/
theorem exec_eq_table {i : Instr} (hwf : i.WellFormed) (s : State) :
    exec i s = .next { s with
      mode := tableMode i.command s.mode
      tx := s.tx ++ tableReply i.command i.payload s.mode
      errs := s.errs ++ tableErrors i.command i.payload s.mode } := by
  rw [exec_eq, applyInstr, effMode_eq_tableMode hwf, effTx_eq_tableReply hwf, effErrs_eq_tableErrors hwf]

/-- Settles O22: the effect of an instruction is the table's, column by column. -/
theorem execIsTheDecisionTable : Obligations.ExecIsTheDecisionTable :=
  fun _ s hwf => exec_eq_table hwf s

/-! ## What an instruction leaves alone -/

/-- R136, R192: a press is answered with a frame or with an error, and no other instruction raises. -/
theorem effTx_eq_nil_or_effErrs_eq_nil (i : Instr) (m : Mode) : effTx i m = [] ∨ effErrs i m = [] := by
  cases i with
  | btnPressed p =>
    rw [effTx, effErrs]
    cases pinsInRange (pin1 p) (pin2 p) <;> simp
  | _ => exact .inr rfl

/-- Settles O23: the effect writes MODE, TX and the errors only, and the columns bound what it writes there. -/
theorem execFrame : Obligations.ExecFrame := by
  intro i s t hwf hexec
  cases (exec_eq i s).symm.trans hexec
  refine ⟨rfl, rfl, rfl, rfl, fun h => effMode_of_not_modeSwitch h s.mode,
    ⟨effTx i s.mode, rfl, effTx_length_le i _, fun h => ?_⟩,
    ⟨effErrs i s.mode, rfl, effErrs_length_le i _, fun h => ?_⟩, ?_⟩
  · rw [effTx_eq_tableReply hwf, tableReply_eq_nil h]
  · rw [effErrs_eq_tableErrors hwf, tableErrors_of_ne_btnPressed h]
  · refine (effTx_eq_nil_or_effErrs_eq_nil i s.mode).imp (fun h => ?_) fun h => ?_
    · rw [applyInstr_tx, h, List.append_nil]
    · rw [applyInstr_errs, h, List.append_nil]

/-- Settles O19: STATUS_UPDATE keeps MODE, emits nothing and raises nothing. -/
theorem inboundStatusIgnored : Obligations.InboundStatusIgnored :=
  fun _ _ => ⟨exec_eq_self rfl rfl rfl, deliver_eq_pktObs rfl rfl rfl⟩

/-! ## The mode switches -/

/-- Settles O15: the command raises and emits nothing, so it only writes MODE, and a tick is never before time 0. -/
theorem checkKeyboardEntryArmsTheTimer : Obligations.CheckKeyboardEntryArmsTheTimer := by
  have hexec : ∀ (p : List Byte) (s : State), exec (.modeCheckKeyboard p) s = .next (s.setMode (.checkKeyboard 1 0)) :=
    fun _ _ => exec_eq_setMode rfl rfl
  refine ⟨hexec, encode_eq_ackFrame rfl, fun p s t now h => ?_⟩
  cases (hexec p s).symm.trans h
  exact tick_due (s := s.setMode (.checkKeyboard 1 0)) rfl (Nat.zero_le now)

theorem ne_btnPressed_of_modeSwitchByte {c : Byte} (h : modeSwitchByte c = true) : c ≠ 0x02 := by
  rintro rfl
  exact absurd h (by decide)

/-- R150: the effect of a mode switch depends neither on the mode it is received in nor on its payload. -/
theorem exec_modeSwitch_irrelevant {i j : Instr} (hi : i.WellFormed) (hj : j.WellFormed) (hc : j.command = i.command)
    (h : modeSwitchByte i.command = true) (s : State) (m : Mode) : exec i { s with mode := m } = exec j s := by
  have hne := ne_btnPressed_of_modeSwitchByte h
  rw [exec_eq_table hi, exec_eq_table hj, hc, tableMode_of_modeSwitch h m s.mode,
    tableReply_of_ne_btnPressed hne i.payload j.payload m s.mode, tableErrors_of_ne_btnPressed hne,
    tableErrors_of_ne_btnPressed hne]

/-- R103, R192: on a residue, one more byte completes at most one candidate. -/
theorem length_items_concat_le {buf : List Byte} (h : rxbufOk buf = true) (b : Byte) :
    (parse (buf ++ [b])).1.length ≤ 1 := by
  rw [parse_concat_eq_feedByte h]
  cases ((parserRegs buf).feedByte b).2 with
  | quiet => exact Nat.zero_le 1
  | error | deliver => exact le_rfl

/-- R38: a packet of at most one item is the only one. -/
theorem packetsOf_eq_singleton {its : List Item} (h : its.length ≤ 1) {p : Packet} (hp : p ∈ packetsOf its) :
    packetsOf its = [p] := by
  have hlen : (packetsOf its).length ≤ 1 := (List.length_filterMap_le _ its).trans h
  have hpos := List.length_pos_of_mem hp
  obtain ⟨q, hq⟩ := List.length_eq_one_iff.mp (Nat.le_antisymm hlen hpos)
  rw [hq, List.mem_singleton] at hp
  rw [hq, hp]

/-- R150: a step from a residue that changes which mode is active took a `Reset`, or a byte that completed a mode switch. -/
theorem step_changes_mode {s t : State} (hrx : rxbufOk s.rxbuf = true) (hstep : step s = .next t)
    (hcode : t.mode.code ≠ s.mode.code) : (∃ es, s.input = .reset :: es) ∨
      ∃ b es p, s.input = .rxByte b :: es ∧ t.obs = s.obs ++ [p] ∧ modeSwitchByte p.command = true := by
  rcases step_cases hstep with ⟨-, rfl⟩ | ⟨es, hin, -⟩ | ⟨b, es, hin, hfeed⟩ | ⟨now, es, -, htick⟩
  · exact absurd rfl hcode
  · exact .inl ⟨es, hin⟩
  · cases (feed_eq [b] { s with input := es }).symm.trans hfeed
    have hsw : ¬ ∀ p ∈ packetsOf (parse (s.rxbuf ++ [b])).1, modeSwitchByte p.command = false :=
      fun h => hcode (congrArg Mode.code (applyItems_mode h { s with input := es }))
    push Not at hsw
    obtain ⟨p, hp, hsw⟩ := hsw
    refine .inr ⟨b, es, p, hin, ?_, Bool.eq_true_of_not_eq_false hsw⟩
    rw [State.setRxbuf_obs, applyItems_obs]
    exact congrArg (s.obs ++ ·) (packetsOf_eq_singleton (length_items_concat_le hrx b) hp)
  · exact absurd (tick_mode_code htick) hcode

/-- Settles O25: the table gives a mode switch one effect in every mode, and its mode by Command byte; what changes the active
mode is a question of the events. -/
theorem modeSwitchesReplaceTheMode : Obligations.ModeSwitchesReplaceTheMode := by
  refine ⟨fun i s m j h hc hi hj => exec_modeSwitch_irrelevant hi hj hc h s m, fun i s hwf => ⟨_, exec_eq_table hwf s, ?_⟩,
    fun s t => step_changes_mode⟩
  refine ⟨fun h => ?_, fun h => ?_, fun h => ?_, fun h => ?_, fun h => ?_⟩ <;> (rw [h]; rfl)

end Sys2Proof.Machine
end

