-- ==== Sys2Proof/Proofs/Events.lean ====
section
/-! PROOF. The machine event by event. Every event answers a state (`60_exceptions.md` R188); Reset leaves the reset state
(`10_state.md` R41); two fires of one stay are INTERVAL apart (`46_tick.md` R174). Then the invariant of the block: it holds
at reset, every item of the parser keeps it because its packets are well-formed, and so does a tick. -/

namespace Sys2Proof.Machine

/-! ## Every event answers a state -/

/-- Settles O42: each event has an equation that answers a state. -/
theorem stepNeverStops : Obligations.StepNeverStops := by
  intro s
  cases hin : s.input with
  | nil => exact ⟨s, step_idle hin⟩
  | cons e es =>
    cases e with
    | reset => exact ⟨_, step_reset hin⟩
    | rxByte b =>
      obtain ⟨t, ht⟩ := feed_answers [b] { s with input := es }
      exact ⟨t, (step_rxByte hin).trans ht⟩
    | tick now =>
      obtain ⟨t, ht, -⟩ := tick_frame now { s with input := es }
      exact ⟨t, (step_tick hin).trans ht⟩

/-- Settles O1: the Reset event has its equation, and the reset state is written out. -/
theorem resetEventLeavesResetState : Obligations.ResetEventLeavesResetState :=
  ⟨fun s es => step_reset (s := { s with input := .reset :: es }) rfl, rfl, rfl, rfl⟩

/-! ## Fires of one stay -/

/-- R174: ticks before CK_NEXT_FIRE do nothing, however many. -/
theorem run_early_ticks {ts : List Nat} {s : State} {es : List Event} {index : Fin 16} {due : Nat}
    (hin : s.input = ts.map Event.tick ++ es) (hm : s.mode = .checkKeyboard index due) (h : ∀ x ∈ ts, x < due) :
    run ts.length s = .next { s with input := es } := by
  induction ts generalizing s with
  | nil =>
    have hes : s.input = es := hin
    subst hes
    rfl
  | cons now ts ih =>
    rw [List.forall_mem_cons] at h
    have hstep := (step_tick hin).trans (tick_early (s := { s with input := ts.map Event.tick ++ es }) hm h.1)
    rw [List.length_cons, run_succ hstep]
    exact ih (s := { s with input := ts.map Event.tick ++ es }) rfl hm h.2

/-- Settles O40: the first tick is due, the ones before the new CK_NEXT_FIRE are early, and the last is due again. -/
theorem firesAtLeastIntervalApart : Obligations.FiresAtLeastIntervalApart := by
  intro s now due index ts later es hm hdue hearly hlater
  have hfire := tick_due (s := { s with input := ts.map Event.tick ++ .tick later :: es }) hm hdue
  refine ⟨_, (step_tick rfl).trans hfire, List.length_append, run_early_ticks rfl rfl hearly, ?_⟩
  exact ⟨_, (step_tick rfl).trans (tick_due rfl hlater), List.length_append, _, rfl⟩

/-! ## The invariant of the block -/

/-- R24, R41: in RUN with nothing received, emitted, observed or raised, the invariant holds. -/
theorem inv_resetEvent (s : State) : (resetEvent s).Inv :=
  ⟨rfl, rfl, List.forall_mem_nil _, List.forall_mem_nil _, List.forall_mem_nil _⟩

/-- Settles O44: the reset state is what a Reset event leaves. -/
theorem resetMeetsInvariant : Obligations.ResetMeetsInvariant := inv_resetEvent State.reset

/-- R70 to R76: every packet that the parser makes is of a well-formed instruction. -/
theorem wellFormed_of_mem_parse {buf : List Byte} {i : Instr} (h : .packet i ∈ (parse buf).1) : i.WellFormed := by
  generalize hn : buf.length = n at h
  induction n using Nat.strong_induction_on generalizing buf with
  | _ n ih =>
    cases hscan : scan buf with
    | wait r =>
      rw [parse_wait hscan] at h
      cases h
    | cut f rest =>
      rw [parse_cut hscan, List.mem_cons] at h
      rcases h with hf | hrest
      · obtain ⟨-, len, body, -, hlen, rfl, -⟩ := scan_cut_split hscan
        exact (wellFormed_and_eq_encode_of_decodeCandidate hlen (decodeCandidate_of_itemOf_packet hf.symm)).1
      · have hlt := scan_cut_length hscan
        exact ih rest.length (by omega) hrest rfl

/-- R31: every instruction leaves a legal MODE. -/
theorem modeOk_effMode (i : Instr) {m : Mode} (h : modeOk m = true) : modeOk (effMode i m) = true := by
  cases i with
  | modeCheckKeyboard | modeRun | modeConfigure | modeDiodeConfig | modeDiodeConfigDel => rfl
  | _ => exact h

/-- R125: an instruction emits acknowledgements and press frames with both pins in range. -/
theorem emittable_effTx (i : Instr) (m : Mode) : ∀ f ∈ effTx i m, emittable f := by
  intro f hf
  cases i with
  | echo | modeDiodeClear | modeDiodeConfig | modeDiodeConfigDel =>
    exact .inl ⟨_, by simp, List.mem_singleton.mp hf⟩
  | btnPressed p =>
    rw [effTx] at hf
    split at hf
    next h => exact .inr (.inl ⟨_, _, (Bool.and_eq_true_iff.mp h).2, List.mem_singleton.mp hf⟩)
    next => cases hf
  | _ => cases hf

/-- R183: an instruction raises semantic errors of pins out of range only. -/
theorem blockError_effErrs (i : Instr) (m : Mode) : ∀ e ∈ effErrs i m, blockError e = true := by
  intro e he
  cases i with
  | btnPressed p =>
    rw [effErrs] at he
    split at he
    next h =>
      rw [List.mem_singleton.mp he]
      exact (Bool.and_eq_true_iff.mp h).2
    next => cases he
  | _ => cases he

section
variable {s : State} (h : s.Inv)
include h

theorem State.Inv.setRxbuf {buf : List Byte} (hbuf : rxbufOk buf = true) : (s.setRxbuf buf).Inv :=
  ⟨hbuf, h.mode, h.tx, h.obs, h.errs⟩

theorem State.Inv.withInput (es : List Event) : State.Inv { s with input := es } :=
  ⟨h.rxbuf, h.mode, h.tx, h.obs, h.errs⟩

/-- R181, R21, R125: an item keeps the invariant if its packet is of a well-formed instruction. -/
theorem State.Inv.applyItem {it : Item} (hit : ∀ i, it = .packet i → i.WellFormed) : (applyItem s it).Inv := by
  cases it with
  | error c => exact ⟨h.rxbuf, h.mode, h.tx, h.obs, List.forall_mem_append.mpr ⟨h.errs, by simp [blockError]⟩⟩
  | packet i =>
    have hfits : payloadFits i.payload = true := decide_eq_true (payload_le i (hit i rfl))
    exact ⟨h.rxbuf, modeOk_effMode i h.mode, List.forall_mem_append.mpr ⟨h.tx, emittable_effTx i _⟩,
      List.forall_mem_append.mpr ⟨h.obs, by simpa using hfits⟩,
      List.forall_mem_append.mpr ⟨h.errs, blockError_effErrs i _⟩⟩

end

theorem State.Inv.applyItems {its : List Item} {s : State} (h : s.Inv) (hits : ∀ i, .packet i ∈ its → i.WellFormed) :
    (applyItems its s).Inv := by
  induction its generalizing s with
  | nil => exact h
  | cons it its ih =>
    refine ih (h.applyItem fun i hi => hits i ?_) fun i hi => hits i (List.mem_cons_of_mem _ hi)
    exact hi ▸ List.mem_cons_self

/-- R24: received bytes keep the invariant. -/
theorem State.Inv.feed {s t : State} {bs : List Byte} (h : s.Inv) (hfeed : feed bs s = .next t) : t.Inv := by
  have hok := rxbufOk_of_feed hfeed
  rw [feed_eq] at hfeed
  cases hfeed
  exact (h.applyItems fun i => wellFormed_of_mem_parse).setRxbuf hok

/-- R31, R125: CK_INDEX 1 to 15 goes on to an index in 1 to 15, and its fire frame is one of the 15. -/
theorem index_fire {i : Fin 16} (h : i ≠ 0) : nextIndex i ≠ 0 ∧ pinInRange (indexByte i) = true := by
  revert i
  decide

/-- R31, R125: a tick keeps the invariant. -/
theorem State.Inv.tick {s t : State} {now : Nat} (h : s.Inv) (htick : tick now s = .next t) : t.Inv := by
  rcases tick_cases now s with ⟨hkeep, -⟩ | ⟨i, due, hm, -, hfire⟩
  · cases hkeep.symm.trans htick
    exact h
  · cases hfire.symm.trans htick
    have hindex : i ≠ 0 := by
      have hok := h.mode
      rw [hm] at hok
      exact bne_iff_ne.mp hok
    obtain ⟨hnext, hpin⟩ := index_fire hindex
    refine ⟨h.rxbuf, bne_iff_ne.mpr hnext, List.forall_mem_append.mpr ⟨h.tx, ?_⟩, h.obs, h.errs⟩
    rw [List.forall_mem_singleton]
    exact .inr (.inr ⟨_, hpin, rfl⟩)

/-- Settles O43: bytes keep the invariant because the parser's packets are well-formed, a tick because the index stays in 1 to
15, and a Reset leaves the reset state. -/
theorem stepKeepsInvariant : Obligations.StepKeepsInvariant := by
  intro s t h hstep
  rcases step_cases hstep with ⟨-, rfl⟩ | ⟨es, -, rfl⟩ | ⟨b, es, -, hfeed⟩ | ⟨now, es, -, htick⟩
  · exact h
  · exact inv_resetEvent _
  · exact (h.withInput es).feed hfeed
  · exact (h.withInput es).tick htick

end Sys2Proof.Machine
end

