-- ==== Sys2Proof/Proofs/Outputs.lean ====
section
/-! PROOF. What a step appends to the outputs, and that it reads none of them (`10_state.md` R37, R38, `42_dispatch.md` R136,
`60_exceptions.md` R192). Both are one fact: from a state with any outputs in the place of its own, an event leads to the same
state with the same appended to those. Then the two orders of a byte and a tick (R193), and the frames at the port (R55). -/

namespace Sys2Proof.Machine

/-! ## The tick as a function of MODE -/

/-- R171, R172: MODE after a tick. -/
def tickMode (now interval : Nat) : Mode → Mode
  | .checkKeyboard i due => if due ≤ now then .checkKeyboard (nextIndex i) (now + interval) else .checkKeyboard i due
  | m => m

/-- R171, R172: the frames of a tick. -/
def tickFrames (now : Nat) : Mode → List (List Byte)
  | .checkKeyboard i due => if due ≤ now then [fireFrame (indexByte i)] else []
  | _ => []

/-- The state with the effect of a tick applied. -/
def applyTick (now : Nat) (s : State) : State :=
  { s with mode := tickMode now s.interval s.mode, tx := s.tx ++ tickFrames now s.mode }

/-- R170: everything a tick can do, as a function of MODE. -/
theorem tick_eq (now : Nat) (s : State) : tick now s = .next (applyTick now s) := by
  cases hm : s.mode with
  | checkKeyboard i due =>
    by_cases hdue : due ≤ now
    · rw [tick_due hm hdue, applyTick, hm, tickMode, tickFrames, if_pos hdue, if_pos hdue]
      rfl
    · rw [tick_early hm (Nat.not_le.mp hdue), applyTick, hm, tickMode, tickFrames, if_neg hdue, if_neg hdue,
        List.append_nil, ← hm]
  | run | configure | diodeConfig | diodeConfigDel =>
    rw [tick_of_ne_checkKeyboard (by simp [hm]), applyTick, hm, tickMode, tickFrames, List.append_nil, ← hm] <;> simp

/-- R175: at most one frame. -/
theorem length_tickFrames_le (now : Nat) (m : Mode) : (tickFrames now m).length ≤ 1 := by
  cases m with
  | checkKeyboard i due =>
    rw [tickFrames]
    split <;> simp
  | _ => exact Nat.zero_le 1

/-! ## Outputs -/

/-- R11, R37, R38: what the block gives off: frames, observations and errors. -/
structure Output where
  frames : List (List Byte)
  packets : List Packet
  errors : List ErrorKind

def Output.append (o d : Output) : Output := ⟨o.frames ++ d.frames, o.packets ++ d.packets, o.errors ++ d.errors⟩

def Output.empty : Output := ⟨[], [], []⟩

/-- At most `n` of each kind. -/
def Output.AtMost (n : Nat) (d : Output) : Prop := d.frames.length ≤ n ∧ d.packets.length ≤ n ∧ d.errors.length ≤ n

/-- The outputs of a state so far. -/
def State.output (s : State) : Output := ⟨s.tx, s.obs, s.errs⟩

/-- The state with other outputs in the place of its own. -/
def State.withOutput (s : State) (o : Output) : State := { s with tx := o.frames, obs := o.packets, errs := o.errors }

@[simp] theorem Output.append_empty (o : Output) : o.append .empty = o := by
  simp [append, empty]

theorem Output.append_assoc (o d e : Output) : (o.append d).append e = o.append (d.append e) := by
  simp [append]

theorem Output.AtMost.append {n m : Nat} {d e : Output} (hd : d.AtMost n) (he : e.AtMost m) :
    (d.append e).AtMost (n + m) := by
  obtain ⟨hdf, hdp, hde⟩ := hd
  obtain ⟨hef, hep, hee⟩ := he
  simp only [AtMost, Output.append, List.length_append]
  omega

theorem Output.AtMost.mono {n m : Nat} {d : Output} (hd : d.AtMost n) (h : n ≤ m) : d.AtMost m := by
  obtain ⟨hf, hp, he⟩ := hd
  exact ⟨hf.trans h, hp.trans h, he.trans h⟩

theorem Output.atMost_empty (n : Nat) : Output.empty.AtMost n := ⟨Nat.zero_le n, Nat.zero_le n, Nat.zero_le n⟩

/-! ## What an event appends -/

/-- R192: what an item gives off in a mode. -/
def Item.output : Item → Mode → Output
  | .error c, _ => ⟨[], [], [.framing c]⟩
  | .packet i, m => ⟨effTx i m, [⟨i.command, i.payload⟩], effErrs i m⟩

/-- R136, R192: at most one of each kind. -/
theorem Item.output_atMost (it : Item) (m : Mode) : (it.output m).AtMost 1 := by
  cases it with
  | error c => exact ⟨Nat.zero_le 1, Nat.zero_le 1, le_rfl⟩
  | packet i => exact ⟨effTx_length_le i m, le_rfl, effErrs_length_le i m⟩

/-- R37, R38: an item appends what it gives off to any outputs, and does not look at them. -/
theorem applyItem_withOutput (s : State) (o : Output) (it : Item) :
    applyItem (s.withOutput o) it = (applyItem s it).withOutput (o.append (it.output s.mode)) := by
  cases it with
  | error c => simp [applyItem, State.withOutput, State.raise, Output.append, Item.output]
  | packet i => rfl

theorem applyItem_output (s : State) (it : Item) : (applyItem s it).output = s.output.append (it.output s.mode) :=
  congrArg State.output (applyItem_withOutput s s.output it)

/-- So do any number of items, at most one of each kind for each. -/
theorem applyItems_withOutput (its : List Item) (s : State) :
    ∃ d : Output, d.AtMost its.length ∧
      ∀ o, applyItems its (s.withOutput o) = (applyItems its s).withOutput (o.append d) := by
  induction its generalizing s with
  | nil => exact ⟨.empty, Output.atMost_empty 0, fun o => by rw [Output.append_empty]; rfl⟩
  | cons it its ih =>
    obtain ⟨d, hd, happ⟩ := ih (applyItem s it)
    refine ⟨(it.output s.mode).append d, ?_, fun o => ?_⟩
    · rw [List.length_cons, Nat.add_comm]
      exact (it.output_atMost s.mode).append hd
    · rw [applyItems_cons, applyItem_withOutput, happ, applyItems_cons, Output.append_assoc]

/-- R192: so do received bytes. -/
theorem feed_withOutput {bs : List Byte} {s t : State} (h : feed bs s = .next t) :
    ∃ d : Output, d.AtMost (parse (s.rxbuf ++ bs)).1.length ∧
      ∀ o, feed bs (s.withOutput o) = .next (t.withOutput (o.append d)) := by
  obtain ⟨d, hd, happ⟩ := applyItems_withOutput (parse (s.rxbuf ++ bs)).1 s
  cases (feed_eq bs s).symm.trans h
  refine ⟨d, hd, fun o => (feed_eq bs _).trans ?_⟩
  exact congrArg (fun u => Host.Outcome.next (u.setRxbuf (parse (s.rxbuf ++ bs)).2)) (happ o)

/-- R175: a tick appends its fire frame, if any, to any outputs. -/
theorem tick_withOutput {now : Nat} {s t : State} (h : tick now s = .next t) :
    ∃ d : Output, d.AtMost 1 ∧ ∀ o, tick now (s.withOutput o) = .next (t.withOutput (o.append d)) := by
  cases (tick_eq now s).symm.trans h
  refine ⟨⟨tickFrames now s.mode, [], []⟩, ⟨length_tickFrames_le now s.mode, Nat.zero_le 1, Nat.zero_le 1⟩, fun o => ?_⟩
  rw [tick_eq]
  simp [applyTick, State.withOutput, Output.append]

/-- R37, R38, R192: so does a step on any event but `Reset`; from a residue it is at most one of each kind. -/
theorem step_withOutput {s t : State} (hreset : s.input.head? ≠ some .reset) (hstep : step s = .next t) :
    ∃ d : Output, (rxbufOk s.rxbuf = true → d.AtMost 1) ∧
      ∀ o, step (s.withOutput o) = .next (t.withOutput (o.append d)) := by
  rcases step_cases hstep with ⟨hin, rfl⟩ | ⟨es, hin, -⟩ | ⟨b, es, hin, hfeed⟩ | ⟨now, es, hin, htick⟩
  · exact ⟨.empty, fun _ => Output.atMost_empty 1, fun o => by rw [Output.append_empty]; exact step_idle hin⟩
  · exact absurd (congrArg List.head? hin) hreset
  · obtain ⟨d, hd, happ⟩ := feed_withOutput hfeed
    exact ⟨d, fun hrx => hd.mono (length_items_concat_le hrx b),
      fun o => (step_rxByte (s := s.withOutput o) hin).trans (happ o)⟩
  · obtain ⟨d, hd, happ⟩ := tick_withOutput htick
    exact ⟨d, fun _ => hd, fun o => (step_tick (s := s.withOutput o) hin).trans (happ o)⟩

/-- The state's own outputs are among those. -/
theorem output_of_withOutput {s t : State} {d : Output} (hstep : step s = .next t)
    (happ : ∀ o, step (s.withOutput o) = .next (t.withOutput (o.append d))) :
    t.tx = s.tx ++ d.frames ∧ t.obs = s.obs ++ d.packets ∧ t.errs = s.errs ++ d.errors := by
  have ht : t = t.withOutput (s.output.append d) := Host.Outcome.next.inj (hstep.symm.trans (happ s.output))
  exact ⟨congrArg State.tx ht, congrArg State.obs ht, congrArg State.errs ht⟩

/-- Settles O47: the same is appended to the outputs of both states. -/
theorem outputsFeedBackIntoNothing : Obligations.OutputsFeedBackIntoNothing := by
  intro s t tx obs errs hreset hstep
  obtain ⟨d, -, happ⟩ := step_withOutput hreset hstep
  obtain ⟨htx, hobs, herrs⟩ := output_of_withOutput hstep happ
  exact ⟨d.frames, d.packets, d.errors, htx, hobs, herrs, happ ⟨tx, obs, errs⟩⟩

/-- R8: a step takes the first waiting event, and keeps INTERVAL. -/
theorem step_input_interval {s t : State} (hstep : step s = .next t) :
    t.input = s.input.tail ∧ t.interval = s.interval := by
  rcases step_cases hstep with ⟨hin, rfl⟩ | ⟨es, hin, rfl⟩ | ⟨b, es, hin, hfeed⟩ | ⟨now, es, hin, htick⟩ <;> rw [hin]
  · exact ⟨rfl, rfl⟩
  · exact ⟨rfl, rfl⟩
  · cases (feed_eq [b] { s with input := es }).symm.trans hfeed
    exact ⟨applyItems_input _ _, applyItems_interval _ _⟩
  · cases (tick_eq now { s with input := es }).symm.trans htick
    exact ⟨rfl, rfl⟩

/-- Settles O45: the event is taken, and what a step appends from a residue is at most one of each kind. -/
theorem stepTakesOneEvent : Obligations.StepTakesOneEvent := by
  intro s t hrx hstep
  obtain ⟨hin, hinterval⟩ := step_input_interval hstep
  refine ⟨hin, hinterval, fun hreset => ?_⟩
  obtain ⟨d, hd, happ⟩ := step_withOutput hreset hstep
  obtain ⟨htx, hobs, herrs⟩ := output_of_withOutput hstep happ
  obtain ⟨hf, hp, he⟩ := hd hrx
  exact ⟨⟨_, htx, hf⟩, ⟨_, hobs, hp⟩, _, herrs, he⟩

/-! ## A byte and a tick together -/

/-- R134: instructions look at MODE only to see whether it answers a press. -/
theorem Item.output_congr (it : Item) {m m' : Mode} (h : pressAnswered m = pressAnswered m') :
    it.output m = it.output m' := by
  cases it with
  | error c => rfl
  | packet i =>
    cases i with
    | btnPressed p => simp only [Item.output, effTx, effErrs, h]
    | _ => rfl

/-- R137: without a mode switch, items give off the same in two modes that agree on answering a press. -/
theorem applyItems_output {its : List Item} (hsw : ∀ p ∈ packetsOf its, modeSwitchByte p.command = false) {s s' : State}
    (h : pressAnswered s.mode = pressAnswered s'.mode) :
    ∃ d, (applyItems its s).output = s.output.append d ∧ (applyItems its s').output = s'.output.append d := by
  induction its generalizing s s' with
  | nil => exact ⟨.empty, (Output.append_empty _).symm, (Output.append_empty _).symm⟩
  | cons it its ih =>
    rw [packetsOf_cons, List.forall_mem_append] at hsw
    obtain ⟨hit, hits⟩ := hsw
    have hmode : pressAnswered (applyItem s it).mode = pressAnswered (applyItem s' it).mode := by
      rwa [applyItem_mode hit, applyItem_mode hit]
    obtain ⟨d, hd, hd'⟩ := ih hits hmode
    refine ⟨(it.output s.mode).append d, ?_, ?_⟩
    · rw [applyItems_cons, hd, applyItem_output, Output.append_assoc]
    · rw [applyItems_cons, hd', applyItem_output, Output.append_assoc, it.output_congr h]

/-- R137: a tick stays in its mode, so it does not change whether a press is answered. -/
theorem pressAnswered_tickMode (now interval : Nat) (m : Mode) :
    pressAnswered (tickMode now interval m) = pressAnswered m := by
  cases m with
  | checkKeyboard i due =>
    rw [tickMode]
    split <;> rfl
  | _ => rfl

/-- R8: a byte that waits in front of other events has the effect of its feed. -/
theorem step_rxByte_cons {b : Byte} {s t : State} (h : feed [b] s = .next t) (es : List Event) :
    step { s with input := .rxByte b :: es } = .next { t with input := es } :=
  (step_rxByte rfl).trans (feed_withInput h es)

/-- R8: so does a tick. -/
theorem step_tick_cons (now : Nat) (s : State) (es : List Event) :
    step { s with input := .tick now :: es } = .next { applyTick now s with input := es } :=
  (step_tick rfl).trans (tick_eq now _)

/-- R193: without a mode switch, items and a tick commute up to the order of their frames: the tick finds the same MODE in both
orders, and the items the same answer to a press. -/
theorem applyItems_applyTick {its : List Item} (hsw : ∀ p ∈ packetsOf its, modeSwitchByte p.command = false) (now : Nat)
    (s : State) : (applyItems its (applyTick now s)).mode = (applyTick now (applyItems its s)).mode ∧
      (applyItems its (applyTick now s)).errs = (applyTick now (applyItems its s)).errs ∧
      (applyItems its (applyTick now s)).tx.Perm (applyTick now (applyItems its s)).tx := by
  obtain ⟨d, hd, hd'⟩ := applyItems_output hsw (s := s) (s' := applyTick now s) (pressAnswered_tickMode now _ _).symm
  have hmode : (applyItems its s).mode = s.mode := applyItems_mode hsw s
  have htx : (applyItems its s).tx = s.tx ++ d.frames := congrArg Output.frames hd
  refine ⟨?_, (congrArg Output.errors hd').trans (congrArg Output.errors hd).symm, ?_⟩
  · rw [applyItems_mode hsw]
    simp only [applyTick, hmode, applyItems_interval]
  · calc (applyItems its (applyTick now s)).tx = s.tx ++ tickFrames now s.mode ++ d.frames := congrArg Output.frames hd'
      _ = s.tx ++ (tickFrames now s.mode ++ d.frames) := List.append_assoc ..
      _ |>.Perm (s.tx ++ (d.frames ++ tickFrames now s.mode)) := List.perm_append_comm.append_left s.tx
      _ = (applyTick now (applyItems its s)).tx := by rw [applyTick, hmode, htx, List.append_assoc]

/-- Settles O48: one order is the items of the byte and then the effect of the tick, the other the same two the other way
round. -/
theorem byteAndTickCommute : Obligations.ByteAndTickCommute := by
  intro s b now es
  have hbyteTick := (run_succ (n := 1) (step_rxByte_cons (feed_eq [b] s) (.tick now :: es))).trans
    (run_succ (n := 0) (step_tick_cons now _ es))
  have htickByte := (run_succ (n := 1) (step_tick_cons now s (.rxByte b :: es))).trans
    (run_succ (n := 0) (step_rxByte_cons (feed_eq [b] (applyTick now s)) es))
  have hobs := applyItems_obs (parse (s.rxbuf ++ [b])).1 s
  exact ⟨_, _, _, hbyteTick, htickByte, hobs, (applyItems_obs _ _).trans hobs.symm, rfl, rfl, rfl,
    (applyItems_interval _ _).trans (applyItems_interval _ s).symm, fun hsw => applyItems_applyTick hsw now s⟩

/-! ## The port -/

/-- R125: every frame that the block emits has bytes. -/
theorem ne_nil_of_emittable {f : List Byte} (h : emittable f) : f ≠ [] := by
  rcases h with ⟨c, -, rfl⟩ | ⟨p1, p2, -, rfl⟩ | ⟨i, -, rfl⟩ <;> exact List.cons_ne_nil _ _

/-- R55: a frame on the port: its bytes, with `tx_last` on the last of them. -/
def portBytes (f : List Byte) : List (Byte × Bool) := f.dropLast.map (·, false) ++ f.getLast?.toList.map (·, true)

theorem txPort_eq (s : State) : s.txPort = s.tx.flatMap portBytes := rfl

theorem portBytes_fst {f : List Byte} (h : f ≠ []) : (portBytes f).map Prod.fst = f := by
  have hid : ∀ (l : List Byte) (last : Bool), (l.map (·, last)).map Prod.fst = l := by
    simp [Function.comp_def]
  rw [portBytes, List.map_append, hid, hid, List.getLast?_eq_some_getLast h, Option.toList_some,
    List.dropLast_append_getLast h]

theorem portBytes_snd {f : List Byte} (h : f ≠ []) :
    (portBytes f).map Prod.snd = List.replicate (f.length - 1) false ++ [true] := by
  rw [portBytes, List.getLast?_eq_some_getLast h]
  simp [Function.comp_def, List.map_const']

/-- Settles O50: under the invariant no frame is empty, so each shows its bytes and `tx_last` once. -/
theorem txPortCarriesWholeFrames : Obligations.TxPortCarriesWholeFrames := by
  intro s h
  have hne : ∀ f ∈ s.tx, f ≠ [] := fun f hf => ne_nil_of_emittable (h.tx f hf)
  rw [txPort_eq, List.map_flatMap, List.map_flatMap]
  refine ⟨?_, List.flatMap_congr fun f hf => portBytes_snd (hne f hf)⟩
  rw [List.flatMap_congr fun f hf => portBytes_fst (hne f hf), List.flatMap_id']

end Sys2Proof.Machine
end
